-- ==== Sys2Proof/Word.lean ====
section
/-! DEFINITION. The widths of the hardware's values (spec 00_scope.md R6, R8; 30_encoding.md R91).

Every quantity of this hardware is an unsigned integer of a fixed width (R8); there is no signed
operation. -/

namespace Sys2Proof

/-- A byte: a memory cell, a register `V[i]`, a timer, or the field `NN` (R6 `XLEN_V`, R91). -/
abbrev Byte := BitVec 8

/-- A 16-bit value: an instruction word, `PC`, `I` or a stack entry (R6, R90). -/
abbrev Word := BitVec 16

/-- A 4-bit field of the instruction word: a register index `X` or `Y`, the immediate `N`, or the
primary key `OP`; also a key code 0x0..0xF (R91, R28). -/
abbrev Nibble := BitVec 4

/-- The 12-bit field `NNN` (R91). -/
abbrev Addr := BitVec 12

/-- One row of the display buffer: 64 one-bit pixels, the pixel of column `x` at bit `x` (R33). -/
abbrev PixelRow := BitVec 64

/-- The 64 × 32 one-bit pixels of the display buffer, row 0 at the top (R33; log entry 24). -/
abbrev Pixels := Vector PixelRow 32

end Sys2Proof
end

