-- ==== Sys2Proof/Syntax.lean ====
section
/-! DEFINITION. The instructions: one constructor per row of the pattern table (spec
30_encoding.md R96, in its order), with the fields of R91 that the row's format uses (R92). -/

namespace Sys2Proof

/-- The 35 patterns of R96. `x`, `y` are register indices, `n`, `nn`, `nnn` immediates (R91, R93). -/
inductive Instr where
  /-- 00E0 `CLS`: clear the display (R210). -/
  | cls
  /-- 00EE `RET`: return from subroutine (R140). -/
  | ret
  /-- 0NNN `SYS addr`: legacy machine-routine call, raises `UnsupportedOpcode` (R141). -/
  | sys (nnn : Addr)
  /-- 1NNN `JP addr`: jump (R142). -/
  | jp (nnn : Addr)
  /-- 2NNN `CALL addr`: call subroutine (R143). -/
  | call (nnn : Addr)
  /-- 3XNN `SE Vx, byte`: skip if equal to the immediate (R150). -/
  | seImm (x : Nibble) (nn : Byte)
  /-- 4XNN `SNE Vx, byte`: skip if not equal to the immediate (R151). -/
  | sneImm (x : Nibble) (nn : Byte)
  /-- 5XY0 `SE Vx, Vy`: skip if the registers are equal (R152). -/
  | seReg (x y : Nibble)
  /-- 6XNN `LD Vx, byte`: load immediate (R160). -/
  | ldImm (x : Nibble) (nn : Byte)
  /-- 7XNN `ADD Vx, byte`: add immediate, no flag (R161). -/
  | addImm (x : Nibble) (nn : Byte)
  /-- 8XY0 `LD Vx, Vy`: register copy (R162). -/
  | ldReg (x y : Nibble)
  /-- 8XY1 `OR Vx, Vy` (R163). -/
  | orReg (x y : Nibble)
  /-- 8XY2 `AND Vx, Vy` (R164). -/
  | andReg (x y : Nibble)
  /-- 8XY3 `XOR Vx, Vy` (R165). -/
  | xorReg (x y : Nibble)
  /-- 8XY4 `ADD Vx, Vy`: add with carry out (R166). -/
  | addReg (x y : Nibble)
  /-- 8XY5 `SUB Vx, Vy`: subtract, VF = no borrow (R167). -/
  | sub (x y : Nibble)
  /-- 8XY6 `SHR Vx, Vy`: shift right by one (R168). -/
  | shr (x y : Nibble)
  /-- 8XY7 `SUBN Vx, Vy`: reverse subtract, VF = no borrow (R169). -/
  | subn (x y : Nibble)
  /-- 8XYE `SHL Vx, Vy`: shift left by one (R170). -/
  | shl (x y : Nibble)
  /-- 9XY0 `SNE Vx, Vy`: skip if the registers differ (R153). -/
  | sneReg (x y : Nibble)
  /-- ANNN `LD I, addr`: load the index register (R190). -/
  | ldI (nnn : Addr)
  /-- BNNN `JP V0, addr`: jump with offset `V[0]` (R144). -/
  | jpV0 (nnn : Addr)
  /-- CXNN `RND Vx, byte`: masked random byte (R171). -/
  | rnd (x : Nibble) (nn : Byte)
  /-- DXYN `DRW Vx, Vy, nibble`: draw a sprite (R211). -/
  | drw (x y n : Nibble)
  /-- EX9E `SKP Vx`: skip if the latched key equals `V[X]` (R230). -/
  | skp (x : Nibble)
  /-- EXA1 `SKNP Vx`: skip if the latched key does not equal `V[X]` (R231). -/
  | sknp (x : Nibble)
  /-- FX07 `LD Vx, DT`: read the delay timer (R232). -/
  | ldVxDt (x : Nibble)
  /-- FX0A `LD Vx, K`: wait for a key (R233). -/
  | ldVxK (x : Nibble)
  /-- FX15 `LD DT, Vx`: set the delay timer (R234). -/
  | ldDtVx (x : Nibble)
  /-- FX18 `LD ST, Vx`: set the sound timer (R235). -/
  | ldStVx (x : Nibble)
  /-- FX1E `ADD I, Vx`: add a register to the index register (R191). -/
  | addI (x : Nibble)
  /-- FX29 `LD F, Vx`: point `I` at a font glyph (R192). -/
  | ldF (x : Nibble)
  /-- FX33 `LD B, Vx`: store binary-coded decimal (R193). -/
  | ldB (x : Nibble)
  /-- FX55 `LD [I], Vx`: store registers `V[0..X]` (R194). -/
  | stRegs (x : Nibble)
  /-- FX65 `LD Vx, [I]`: load registers `V[0..X]` (R195). -/
  | ldRegs (x : Nibble)
  deriving DecidableEq, Repr

end Sys2Proof
end

