-- ==== Sys2Proof/Config.lean ====
section
/-! DEFINITION. The parameters of the block as one configuration record (spec 00_scope.md R6), the
record of this hardware, and the one free value: the random byte of CXNN.

The widths, the counts of registers and of stack entries, and the display's size are fixed by the
spec and stand in the types of `Sys2Proof/Word.lean` and `Machine/State.lean`. -/

namespace Sys2Proof

/-- The two settings of the quirk parameter `SHIFT_SOURCE`: the register that 8XY6 and 8XYE shift
(R6; 43_load_and_alu.md R168, R170). -/
inductive ShiftSource where
  | vy
  | vx
  deriving DecidableEq, Repr

/-- The parameters whose status in R6 is "open: the model takes it as an argument, with the default
shown". `resetWith`, `execWith` and `stepWith` take them (Machine/HostOps.lean); they are constant for
the life of the block and no part of its state (10_state.md R34). -/
structure OpenParams where
  /-- `FONT`, the 80 glyph bytes: row `r` of digit `d` is element `5 · d + r` (10_state.md R31). -/
  font : Vector Byte 80
  /-- `SHIFT_SOURCE`, the register that 8XY6 and 8XYE shift. -/
  shiftSource : ShiftSource
  deriving DecidableEq, Repr

/-- The one configuration record: the open parameters, and the fixed and decided ones of rule R6 that
are values, not widths. -/
structure Config extends OpenParams where
  /-- `MEM_SIZE`, the number of byte cells of memory. -/
  memSize : Nat
  /-- `PROG_BASE`, where the program image is copied and where `PC` starts. -/
  progBase : Nat
  /-- `FONT_BASE`, where reset puts the font and where FX29 points. -/
  fontBase : Nat
  /-- `GLYPH_BYTES`, the number of bytes of one glyph. -/
  glyphBytes : Nat
  deriving DecidableEq, Repr

/-- `PROG_MAX`, the longest accepted program image: `MEM_SIZE − 512` (R6). -/
def Config.progMax (c : Config) : Nat := c.memSize - 512

/-- The default table of the open parameter `FONT`, digits 0 to 7 (10_state.md R31).
PRESUMED: the spec takes the bytes from general knowledge (log entry 2). -/
def defaultFontLow : List Byte :=
  [0xF0, 0x90, 0x90, 0x90, 0xF0] ++ [0x20, 0x60, 0x20, 0x20, 0x70] ++
  [0xF0, 0x10, 0xF0, 0x80, 0xF0] ++ [0xF0, 0x10, 0xF0, 0x10, 0xF0] ++
  [0x90, 0x90, 0xF0, 0x10, 0x10] ++ [0xF0, 0x80, 0xF0, 0x10, 0xF0] ++
  [0xF0, 0x80, 0xF0, 0x90, 0xF0] ++ [0xF0, 0x10, 0x20, 0x40, 0x40]

/-- The default table of the open parameter `FONT`, digits 8 to F (10_state.md R31).
PRESUMED: the spec takes the bytes from general knowledge (log entry 2). -/
def defaultFontHigh : List Byte :=
  [0xF0, 0x90, 0xF0, 0x90, 0xF0] ++ [0xF0, 0x90, 0xF0, 0x10, 0xF0] ++
  [0xF0, 0x90, 0xF0, 0x90, 0x90] ++ [0xE0, 0x90, 0xE0, 0x90, 0xE0] ++
  [0xF0, 0x80, 0x80, 0x80, 0xF0] ++ [0xE0, 0x90, 0x90, 0x90, 0xE0] ++
  [0xF0, 0x80, 0xF0, 0x80, 0xF0] ++ [0xF0, 0x80, 0xF0, 0x80, 0x80]

/-- The configuration of this hardware: the fixed and decided values of R6, and the defaults that
R6 gives for the two open parameters `FONT` and `SHIFT_SOURCE`.
DESIGN CHOICE (log entries 1 to 4): an open parameter stands at the default the spec gives it. `exec`,
`step` and `State.reset`, whose types leave no room for an argument, use these defaults. -/
def config : Config where
  memSize := 4096
  progBase := 0x200
  fontBase := 0x050
  glyphBytes := 5
  font := ⟨(defaultFontLow ++ defaultFontHigh).toArray, rfl⟩
  shiftSource := .vy

/-- FREE VALUE: the byte of draw number `k`. The spec makes the random byte of CXNN an input of
`step` that may be any of 0..255, under no law (40_step_cycle.md R128), so it has no body here and
no proof can see what it is (log entry 5). -/
opaque Config.rnd : Nat → Byte

end Sys2Proof
end

