-- ==== Sys2Proof/Machine/Memory.lean ====
section
/-! DEFINITION. Main memory `MEM` (spec 10_state.md R31, R32; 20_memory.md R60 to R69): a sparse
list of (address, byte) cells in one canonical form, its reset contents, and its primitives.

The list holds the cells whose byte differs from what `reset` of an empty image leaves there at the
default font; every other cell reads as those contents. At another font the glyph bytes that differ are
listed cells (`emptyReset`, log entry 23). -/

namespace Sys2Proof.Machine

/-- The cells that differ from the default reset contents, addresses strictly rising. -/
abbrev Memory := List Host.Cell

/-- What an unlisted address reads as: the contents that `reset` of an empty image gives it at the
default font, the font's bytes at `FONT_BASE` and zero everywhere else (10_state.md R31, R37). -/
def Memory.unlisted (a : Nat) : Byte :=
  if config.fontBase ≤ a then config.font[a - config.fontBase]?.getD 0 else 0

/-- The raw cell `mem[a]` (00_scope.md R9), used after the address was checked. -/
def Memory.get : Memory → Nat → Byte
  | [], a => Memory.unlisted a
  | (b, v) :: m, a => if a = b then v else Memory.get m a

/-- Drop the cell of address `a`, if it is listed. -/
def Memory.erase (m : Memory) (a : Nat) : Memory := m.filter fun c => c.1 != a

/-- List a cell in its place in the order of addresses. -/
def Memory.insert : Memory → Nat → Byte → Memory
  | [], a, v => [(a, v)]
  | (b, u) :: m, a, v => if a < b then (a, v) :: (b, u) :: m else (b, u) :: Memory.insert m a v

/-- The raw write `mem[a] <- v` (20_memory.md R63), used after the address was checked. Writing
the byte an unlisted cell reads as leaves the cell unlisted. -/
def Memory.set (m : Memory) (a : Nat) (v : Byte) : Memory :=
  if v = Memory.unlisted a then m.erase a else (m.erase a).insert a v

/-- The `n` bytes at `a`, `a + 1`, …, in address order. -/
def Memory.getRange (m : Memory) : Nat → Nat → List Byte
  | _, 0 => []
  | a, n + 1 => m.get a :: m.getRange (a + 1) n

/-- Write bytes at `a`, `a + 1`, …, in address order. -/
def Memory.setRange (m : Memory) (a : Nat) : List Byte → Memory
  | [] => m
  | v :: vs => (m.set a v).setRange (a + 1) vs

/-- The canonical form: addresses strictly rising and inside `MEM` (R32), and no cell that holds
what an unlisted address reads as. -/
abbrev Memory.wf (m : Memory) : Prop :=
  m.Pairwise (fun c d => c.1 < d.1) ∧ ∀ c ∈ m, c.1 < config.memSize ∧ c.2 ≠ Memory.unlisted c.1

/-! ### The bounds-checked accesses (20_memory.md R62, R63, R68)

An address is a natural number that is never reduced (log entry 25). An access that is out of
range answers with the offending address that `MemoryOutOfBounds` reports. -/

/-- `MemRead(addr, 1)` (R62). -/
def Memory.read (m : Memory) (a : Nat) : Except Nat Byte :=
  if config.memSize ≤ a then .error a else .ok (m.get a)

/-- The smallest address `≥ MEM_SIZE` among the `n` addresses from `base`, if there is one: the
largest address is tested, and `max(base, MEM_SIZE)` is reported (R68). -/
def Memory.offending (base n : Nat) : Option Nat :=
  if 1 ≤ n ∧ config.memSize ≤ base + n - 1 then some (max base config.memSize) else none

/-- Read `n` bytes from `base`, after the range was checked as a whole (R62, R68). -/
def Memory.loadRange (m : Memory) (base n : Nat) : Except Nat (List Byte) :=
  match Memory.offending base n with
  | some a => .error a
  | none => .ok (m.getRange base n)

/-- Write bytes from `base`, after the range was checked as a whole: an out-of-range access writes
no byte (R63, R68). No region is protected (R69; log entry 19). A list of one byte is
`MemWrite(addr, 1, v)`. -/
def Memory.storeRange (m : Memory) (base : Nat) (vs : List Byte) : Except Nat Memory :=
  match Memory.offending base vs.length with
  | some a => .error a
  | none => .ok (m.setRange base vs)

end Sys2Proof.Machine
end

