-- ==== Sys2Proof/Machine/State.lean ====
section
/-! DEFINITION. The complete state of the block (spec 10_state.md R20 to R33, R39), the machine that
the interface runs, the reasons a step could stop, and the state after reset (R37).

`Block` is all that the hardware stores: the rows of R20 and nothing else. It holds no random byte, no
generator and no count (R34). `State` sets beside it the one thing of the host that a step without an
argument needs: how far the host is in the sequence of random bytes it supplies (log entry 5). -/

namespace Sys2Proof.Machine

/-- The fault codes of 60_exceptions.md R251. -/
inductive FaultCode where
  /-- Code 1, raised by `reset`: the image is longer than `PROG_MAX` (R260). -/
  | loadError
  /-- Code 2, raised by the execute stage of an illegal or `SYS` word (R252). -/
  | unsupportedOpcode
  /-- Code 3, raised by 2NNN with `SP` = 16 (R253). -/
  | stackOverflow
  /-- Code 4, raised by 00EE with `SP` = 0 (R254). -/
  | stackUnderflow
  /-- Code 5, raised by the fetch, DXYN, FX33, FX55 and FX65 at an address `≥ MEM_SIZE` (R255). -/
  | memoryOutOfBounds
  deriving DecidableEq, Repr

/-- The fault record `(code, word, pc, addr)` of R30. -/
structure FaultRecord where
  code : FaultCode
  /-- The faulting instruction word; `none` for a fetch fault and a `LoadError`. -/
  word : Option Word
  /-- The address of the faulting instruction; `none` for a `LoadError`. -/
  pc : Option Word
  /-- The offending address of a `MemoryOutOfBounds`, not reduced to 16 bits; `none` otherwise. -/
  addr : Option Nat
  deriving DecidableEq, Repr

/-- Reasons for a step to stop outside the spec's state. There is none: `step` is defined on every
state (40_step_cycle.md R129), and each fatal condition of the spec is a next state in which the
latch `FAULT` holds its record (60_exceptions.md R256; log entry 6). Nobody raises one. -/
inductive Fault where
  deriving DecidableEq, Repr

/-- Reasons for the model to give an instruction no meaning. -/
inductive Refusal where
  /-- Raised by an arm of `exec` whose instruction has no meaning yet. Safe. No arm raises it. -/
  | notModelled (mnemonic : String)
  deriving DecidableEq, Repr

/-- The state of the block: the rows of R20, and nothing of what R34 keeps out of it. -/
structure Block where
  /-- `MEM`, 4096 byte cells (R32). -/
  mem : Memory
  /-- `V[0]`..`V[15]` (R21); `V[15]` is the flag register `VF` (R22). -/
  v : Vector Byte 16
  /-- `I`, the index register (R23). -/
  i : Word
  /-- `PC`, the address of the next instruction (R24). -/
  pc : Word
  /-- `STACK[0]`..`STACK[15]` (R25). -/
  stack : Vector Word 16
  /-- `SP`, the number of live stack entries, 0..16 (R25). -/
  sp : Fin 17
  /-- `DT`, the delay timer (R26). -/
  dt : Byte
  /-- `ST`, the sound timer (R27). -/
  st : Byte
  /-- `KEY`, the key latch; `none` is the spec's own "no key" (R28). -/
  key : Option Nibble
  /-- `WAIT`, true while Waiting (R29). -/
  wait : Bool
  /-- `FAULT`, the fault latch; `none` is the spec's own "no fault" (R30). -/
  fault : Option FaultRecord
  /-- `DISP`, the pixel in column `x` and row `y` at bit `x` of entry `y` (R33). -/
  disp : Pixels
  deriving DecidableEq, Repr

/-- The block together with the host that supplies `RND`, the input of the spec's `step(rnd)`. -/
structure State extends Block where
  /-- The host's, not the block's: its place in the sequence of random bytes it supplies, that is how
  many of them CXNN has taken. The model's own field. -/
  draws : Nat
  deriving DecidableEq, Repr

/-- The state after `reset` of an empty image (R37; 70_reset_and_hazards.md R291): memory holds
the font and zero, `PC` is 0x200, everything else is zero or `none` (log entry 17). -/
def Block.reset : Block where
  mem := []
  v := Vector.replicate 16 0
  i := 0
  pc := BitVec.ofNat 16 config.progBase
  stack := Vector.replicate 16 0
  sp := 0
  dt := 0
  st := 0
  key := none
  wait := false
  fault := none
  disp := Vector.replicate 32 0

/-- The machine as the interface starts it: the block after reset, and a host that has supplied no byte
yet. `draws` = 0 is a DESIGN CHOICE (log entry 5); `reset(image)` leaves it as it is (`resetWith`). -/
def State.reset : State := { Block.reset with draws := 0 }

/-- The outcome of a step of this machine. -/
abbrev Result := Host.Outcome State Fault Refusal

end Sys2Proof.Machine
end

