-- ==== Sys2Proof/Machine/Ops.lean ====
section
/-! DEFINITION. The named operations over the registers, the stack, the program counter and the
fault latch that every meaning is written with, fault entry, and the fetch (spec 00_scope.md R9;
20_memory.md R64; 40_step_cycle.md R120 to R125; 60_exceptions.md R251 to R257). -/

namespace Sys2Proof.Machine

/-! ### General registers (10_state.md R21, R22) -/

/-- The index of `VF` (R22). -/
abbrev vf : Nibble := 0xF

/-- Read `V[r]` (R9). Every 4-bit index names a register (R21). -/
def State.getV (s : State) (r : Nibble) : Byte := s.v[r.toNat]'r.isLt

/-- `V[r] <- b` (R9). No register is hardwired and none aliases another (R21). -/
def State.setV (s : State) (r : Nibble) (b : Byte) : State :=
  { s with v := s.v.set r.toNat b r.isLt }

/-- `V[k], V[k + 1], … <- bs`, in that order (44_index_and_memory.md R195). -/
def State.setVs (s : State) (k : Nat) : List Byte → State
  | [] => s
  | b :: bs => State.setVs (s.setV (BitVec.ofNat 4 k) b) (k + 1) bs

/-- The flag write and then the data write of a flag-writing ALU instruction: with `X` = 15 the
data result, written second, is what `VF` holds (40_step_cycle.md R124, 43_load_and_alu.md R173;
log entry 10). -/
def State.setFlagThenV (s : State) (flag : Byte) (x : Nibble) (b : Byte) : State :=
  (s.setV vf flag).setV x b

/-! ### The program counter (10_state.md R24, 40_step_cycle.md R125) -/

/-- `PC <- PC + 2`, exact wherever an instruction executes (R125; log entry 26). -/
def State.advance (s : State) : State := { s with pc := s.pc + 2 }

/-- `PC <- PC + 4` if the skip is taken, else `PC <- PC + 2` (42_skips.md R154). -/
def State.skipIf (s : State) (taken : Bool) : State :=
  { s with pc := if taken then s.pc + 4 else s.pc + 2 }

/-- `PC <- target`. -/
def State.jumpTo (s : State) (target : Word) : State := { s with pc := target }

/-! ### The call stack (10_state.md R25; log entry 18) -/

/-- `STACK[SP] <- PC; SP <- SP + 1`, or `none` when `SP` = 16. -/
def State.pushPc (s : State) : Option State :=
  if h : s.sp.val < 16 then
    some { s with stack := s.stack.set s.sp.val s.pc h, sp := ⟨s.sp.val + 1, by omega⟩ }
  else none

/-- `SP <- SP − 1`, with the popped value `STACK[SP]`; or `none` when `SP` = 0. -/
def State.pop (s : State) : Option (Word × State) :=
  if h : s.sp.val = 0 then none
  else some (s.stack[s.sp.val - 1]'(by omega), { s with sp := ⟨s.sp.val - 1, by omega⟩ })

/-! ### The host's random byte (40_step_cycle.md R128; log entry 5) -/

/-- `RND`, the input of this step: the byte at the host's place in its sequence, a free value. -/
def State.rndInput (s : State) : Byte := Config.rnd s.draws

/-- The host moves on to its next byte; the block is untouched. -/
def State.nextRnd (s : State) : State := { s with draws := s.draws + 1 }

/-! ### Fault entry (60_exceptions.md R251, R256)

A fault is precise: only the latch is written, and every other element keeps the value it had when
the step began (log entries 6, 7). -/

/-- The numbers of R251. -/
def FaultCode.number : FaultCode → Nat
  | .loadError => 1
  | .unsupportedOpcode => 2
  | .stackOverflow => 3
  | .stackUnderflow => 4
  | .memoryOutOfBounds => 5

/-- `FAULT <- r`, and nothing else. -/
def State.latch (s : State) (r : FaultRecord) : State := { s with fault := some r }

/-- `raise F(info)` inside a step: `FAULT <- (code, word, PC, addr)` (R256). -/
def raise (s : State) (code : FaultCode) (word : Option Word) (addr : Option Nat) : Result :=
  .next (s.latch { code := code, word := word, pc := some s.pc, addr := addr })

/-- `raise` by the execute stage of an instruction. The recorded `word` is the instruction's own
word, which `encode` gives back because every word has one meaning (30_encoding.md R95, R99; log
entry 9). -/
def raiseBy (i : Instr) (code : FaultCode) (addr : Option Nat) (s : State) : Result :=
  raise s code (some (encode i)) addr

/-- Nothing but the `FAULT` latch says that the block is halted (R257). -/
def State.halted (s : State) : Bool := s.fault.isSome

/-! ### Fetch and decode (40_step_cycle.md R120, R122, R123) -/

/-- The word at `PC`: two byte reads, at `PC` and at `PC + 1` computed without wrap, big-endian,
with no alignment check (20_memory.md R64 to R66; log entry 12); or the first of the two addresses
that is out of range. -/
def fetchWord (s : State) : Except Nat Word :=
  match s.mem.read s.pc.toNat with
  | .error a => .error a
  | .ok hi =>
    match s.mem.read (s.pc.toNat + 1) with
    | .error a => .error a
    | .ok lo => .ok (wordOfBytes hi lo)

/-- The fetch and decode stages: the instruction at `PC`, or the record of the fault that ends the
step before any instruction's rule runs. A fetch fault records no word (R64; log entry 9); an
illegal word records itself (60_exceptions.md R252). -/
def fetchInstr (s : State) : Except FaultRecord Instr :=
  match fetchWord s with
  | .error a => .error ⟨.memoryOutOfBounds, none, some s.pc, some a⟩
  | .ok w =>
    match decodeWord w with
    | .error _ => .error ⟨.unsupportedOpcode, some w, some s.pc, none⟩
    | .ok i => .ok i

/-! ### Status (40_step_cycle.md R127, 60_exceptions.md R267) -/

/-- The three values that the spec's `step` returns. -/
inductive Status where
  | ok
  | waiting
  | fault
  deriving DecidableEq, Repr

/-- The returned status is a function of the state the step leaves (R127). -/
def State.status (s : State) : Status :=
  if s.halted then .fault else if s.wait then .waiting else .ok

/-! ### Placing a word for the next step (log entry 21) -/

/-- Put a word where the next step fetches: at `PC` when both its bytes fit in `MEM`, else at
`PROG_BASE` with `PC` moved there; a halted block is taken out of its halt. -/
def State.placeWord (s : State) (w : Word) : State :=
  let pc := if s.pc.toNat + 1 < config.memSize then s.pc else BitVec.ofNat 16 config.progBase
  { s with
    mem := s.mem.setRange pc.toNat [highByte w, lowByte w]
    pc := pc
    fault := none }

end Sys2Proof.Machine
end

