-- ==== Sys2Proof/Machine/Operands.lean ====
section
/-! DEFINITION. Every operand form of the instructions (spec 30_encoding.md R93; 20_memory.md R68;
43_load_and_alu.md R168, R170; 44_index_and_memory.md R192 to R196; 46_keys_and_timers.md R230).

A register operand is the value `V[X]` or `V[Y]`, read by `State.getV` before anything is written
(40_step_cycle.md R124; log entry 10). -/

namespace Sys2Proof.Machine

/-- `zext_16(NNN)`: the target of a jump or call, or the new `I` (R93). -/
def zextAddr (nnn : Addr) : Word := nnn.setWidth 16

/-- `zext_16(vx)`: a register as a 16-bit addend (R144, R191). -/
def zextByte (b : Byte) : Word := b.setWidth 16

/-- The register that 8XY6 and 8XYE shift, chosen by `SHIFT_SOURCE` (R168, R170). -/
def shiftOperand (src : ShiftSource) (x y : Nibble) (s : State) : Byte :=
  match src with
  | .vy => s.getV y
  | .vx => s.getV x

/-- `FONT_BASE + 5 · vx`, on the whole 8-bit value (R192; log entry 14). -/
def glyphAddress (vx : Byte) : Word := BitVec.ofNat 16 (config.fontBase + config.glyphBytes * vx.toNat)

/-- The three decimal digits of a byte, hundreds first, one byte each (R193). -/
def decimalDigits (vx : Byte) : List Byte :=
  [BitVec.ofNat 8 (vx.toNat / 100), BitVec.ofNat 8 (vx.toNat / 10 % 10),
    BitVec.ofNat 8 (vx.toNat % 10)]

/-- The number of registers that FX55 and FX65 move: `X + 1` (R194, R195). -/
def regCount (x : Nibble) : Nat := x.toNat + 1

/-- `V[0]`, …, `V[X]` (R194). -/
def regsUpTo (x : Nibble) (s : State) : List Byte := s.v.toList.take (regCount x)

/-- `KEY ≠ none` and `zext_8(KEY) = vx`, on all 8 bits of `vx` (R230; log entry 14). -/
def keyMatches (key : Option Nibble) (vx : Byte) : Bool :=
  match key with
  | none => false
  | some k => k.setWidth 8 == vx

end Sys2Proof.Machine
end

