-- ==== Sys2Proof/Machine/Flags.lean ====
section
/-! DEFINITION. The flag values. The one flag is the whole register `VF`; an instruction that writes
it writes 0 or 1 (spec 10_state.md R22). The collision flag of DXYN is computed with the drawing in
Machine/Display.lean and written through `flagByte`. -/

namespace Sys2Proof.Machine

/-- The value 1 or 0 of a flag (R22). -/
def flagByte (b : Bool) : Byte := if b then 1 else 0

/-- 8XY4: the carry out of `vx + vy`, computed unbounded (43_load_and_alu.md R166). -/
def carryFlag (vx vy : Byte) : Byte := flagByte (decide (vx.toNat + vy.toNat > 255))

/-- 8XY5 and, with the operands exchanged, 8XY7: 1 when `a − b` needs no borrow, equal operands
included (R167, R169). -/
def noBorrowFlag (a b : Byte) : Byte := flagByte (decide (a.toNat ≥ b.toNat))

/-- 8XY6: `src[0]`, the bit shifted out to the right (R168). -/
def shiftedOutRight (src : Byte) : Byte := flagByte (src.getLsbD 0)

/-- 8XYE: `src[7]`, the bit shifted out to the left (R170). -/
def shiftedOutLeft (src : Byte) : Byte := flagByte (src.getLsbD 7)

end Sys2Proof.Machine
end

