-- ==== Sys2Proof/Machine/Alu.lean ====
section
/-! DEFINITION. Register load and ALU instructions (spec 43_load_and_alu.md R160 to R173). Each ends
with `PC <- PC + 2` and raises no fault. -/

namespace Sys2Proof.Machine

/-- 6XNN `LD Vx, byte` (R160). -/
def execLdImm (x : Nibble) (nn : Byte) (s : State) : Result := .next (s.setV x nn).advance

/-- 7XNN `ADD Vx, byte`: `(vx + NN) mod 256`, no flag (R161). -/
def execAddImm (x : Nibble) (nn : Byte) (s : State) : Result :=
  .next (s.setV x (s.getV x + nn)).advance

/-- 8XY0 `LD Vx, Vy` (R162). -/
def execLdReg (x y : Nibble) (s : State) : Result := .next (s.setV x (s.getV y)).advance

/-- 8XY1 `OR Vx, Vy`, on register values; `VF` is not written (R163; log entry 11). -/
def execOr (x y : Nibble) (s : State) : Result :=
  .next (s.setV x (s.getV x ||| s.getV y)).advance

/-- 8XY2 `AND Vx, Vy`; `VF` is not written (R164; log entry 11). -/
def execAnd (x y : Nibble) (s : State) : Result :=
  .next (s.setV x (s.getV x &&& s.getV y)).advance

/-- 8XY3 `XOR Vx, Vy`; `VF` is not written (R165; log entry 11). -/
def execXor (x y : Nibble) (s : State) : Result :=
  .next (s.setV x (s.getV x ^^^ s.getV y)).advance

/-- 8XY4 `ADD Vx, Vy`: `VF` is the carry, then `V[X]` the sum mod 256 (R166). -/
def execAddReg (x y : Nibble) (s : State) : Result :=
  let vx := s.getV x
  let vy := s.getV y
  .next (s.setFlagThenV (carryFlag vx vy) x (vx + vy)).advance

/-- 8XY5 `SUB Vx, Vy`: `VF` is no-borrow, then `V[X]` is `(vx − vy) mod 256` (R167). -/
def execSub (x y : Nibble) (s : State) : Result :=
  let vx := s.getV x
  let vy := s.getV y
  .next (s.setFlagThenV (noBorrowFlag vx vy) x (vx - vy)).advance

/-- 8XY7 `SUBN Vx, Vy`: `VF` is no-borrow, then `V[X]` is `(vy − vx) mod 256` (R169). -/
def execSubn (x y : Nibble) (s : State) : Result :=
  let vx := s.getV x
  let vy := s.getV y
  .next (s.setFlagThenV (noBorrowFlag vy vx) x (vy - vx)).advance

/-- The logical shift right by one of the register that `src` selects (R168). -/
def shiftRight (src : ShiftSource) (x y : Nibble) (s : State) : Result :=
  let b := shiftOperand src x y s
  .next (s.setFlagThenV (shiftedOutRight b) x (b >>> 1)).advance

/-- The shift left by one of the register that `src` selects (R170). -/
def shiftLeft (src : ShiftSource) (x y : Nibble) (s : State) : Result :=
  let b := shiftOperand src x y s
  .next (s.setFlagThenV (shiftedOutLeft b) x (b <<< 1)).advance

/-- 8XY6 `SHR Vx, Vy`, at the configured `SHIFT_SOURCE` (R168; log entry 1). -/
def execShr (x y : Nibble) (s : State) : Result := shiftRight config.shiftSource x y s

/-- 8XYE `SHL Vx, Vy`, at the configured `SHIFT_SOURCE` (R170; log entry 1). -/
def execShl (x y : Nibble) (s : State) : Result := shiftLeft config.shiftSource x y s

/-- CXNN with the random byte as an argument: `V[X] <- rnd AND NN` (R171). -/
def randomByte (rnd : Byte) (x : Nibble) (nn : Byte) (s : State) : Result :=
  .next (s.setV x (rnd &&& nn)).advance

/-- CXNN `RND Vx, byte`, with the host's free byte as `rnd` (R171, 40_step_cycle.md R128; log
entry 5). -/
def execRnd (x : Nibble) (nn : Byte) (s : State) : Result :=
  randomByte s.rndInput x nn s.nextRnd

end Sys2Proof.Machine
end

