-- ==== Sys2Proof/Machine/ControlFlow.lean ====
section
/-! DEFINITION. Control transfer instructions (spec 41_control_flow.md R140 to R145). No transfer
checks its target (R145(d)). -/

namespace Sys2Proof.Machine

/-- 00EE `RET`: pop, and resume at the instruction after the call site; `StackUnderflow` when the
stack is empty (R140, R254). -/
def execRet (s : State) : Result :=
  match s.pop with
  | none => raiseBy .ret .stackUnderflow none s
  | some (site, s') => .next (s'.jumpTo (site + 2))

/-- 0NNN `SYS addr`: always `UnsupportedOpcode` (R141, R252). -/
def execSys (nnn : Addr) (s : State) : Result := raiseBy (.sys nnn) .unsupportedOpcode none s

/-- 1NNN `JP addr` (R142). -/
def execJp (nnn : Addr) (s : State) : Result := .next (s.jumpTo (zextAddr nnn))

/-- 2NNN `CALL addr`: push the call site and jump; `StackOverflow` when the stack is full
(R143, R253). -/
def execCall (nnn : Addr) (s : State) : Result :=
  match s.pushPc with
  | none => raiseBy (.call nnn) .stackOverflow none s
  | some s' => .next (s'.jumpTo (zextAddr nnn))

/-- BNNN `JP V0, addr`: `PC <- NNN + V[0]`, always register 0, not reduced modulo 4096 (R144). -/
def execJpV0 (nnn : Addr) (s : State) : Result :=
  .next (s.jumpTo (zextAddr nnn + zextByte (s.getV 0)))

end Sys2Proof.Machine
end

