-- ==== Sys2Proof/Machine/Display.lean ====
section
/-! DEFINITION. The display buffer and its two instructions (spec 45_display.md R210 to R213;
20_memory.md R75). Drawing follows the loops of R211. -/

namespace Sys2Proof.Machine

/-- `DISP[x, y] = 1`. -/
def lit (d : Pixels) (x : Fin 64) (y : Fin 32) : Bool := d[y.val].getLsbD x.val

/-- `DISP[x, y] <- DISP[x, y] XOR 1`. -/
def flipPixel (d : Pixels) (x : Fin 64) (y : Fin 32) : Pixels :=
  d.set y.val (d[y.val] ^^^ BitVec.twoPow 64 x.val)

/-- The column of sprite bit `c`: `(vx + c) mod 64` (R211, R75). -/
def spriteColumn (vx c : Nat) : Fin 64 := Fin.ofNat 64 (vx + c)

/-- The screen row of sprite row `r`: `(vy + r) mod 32` (R211, R75). -/
def spriteRow (vy r : Nat) : Fin 32 := Fin.ofNat 32 (vy + r)

/-- The display while a sprite is drawn, with the collision found so far. -/
structure Drawing where
  disp : Pixels
  collision : Bool
  deriving DecidableEq, Repr

/-- The body of the loops of R211 for row `r` with byte `b` and column `c`: a 1 bit flips its
pixel, whose coordinates wrap, and records a collision when the pixel was lit. -/
def drawBit (vx vy r : Nat) (b : Byte) (d : Drawing) (c : Nat) : Drawing :=
  if b.getLsbD (7 - c) then
    let px := spriteColumn vx c
    let py := spriteRow vy r
    { disp := flipPixel d.disp px py, collision := d.collision || lit d.disp px py }
  else d

/-- `for c = 0 .. 7`, most significant bit first (R211, R212). -/
def drawRow (vx vy r : Nat) (b : Byte) (d : Drawing) : Drawing :=
  (List.range 8).foldl (drawBit vx vy r b) d

/-- `for r = 0 .. N − 1` over the sprite's bytes, from row `r` on (R211). -/
def drawRows (vx vy : Nat) : Nat → List Byte → Drawing → Drawing
  | _, [], d => d
  | r, b :: bs, d => drawRows vx vy (r + 1) bs (drawRow vx vy r b d)

/-- 00E0 `CLS`: every pixel 0; `VF` unchanged (R210). -/
def execCls (s : State) : Result := .next { s with disp := Vector.replicate 32 0 }.advance

/-- DXYN `DRW Vx, Vy, nibble`: the sprite's range is checked first; then `VF <- 0`, the sprite is
drawn, and `VF` is 1 if a lit pixel was turned off (R211; log entries 10, 15). -/
def execDrw (x y n : Nibble) (s : State) : Result :=
  let vx := (s.getV x).toNat
  let vy := (s.getV y).toNat
  match s.mem.loadRange s.i.toNat n.toNat with
  | .error a => raiseBy (.drw x y n) .memoryOutOfBounds (some a) s
  | .ok sprite =>
    let drawn := drawRows vx vy 0 sprite { disp := s.disp, collision := false }
    .next ({ s with disp := drawn.disp }.setV vf (flagByte drawn.collision)).advance

end Sys2Proof.Machine
end

