-- ==== Sys2Proof/Machine/IndexMem.lean ====
section
/-! DEFINITION. Index register and memory instructions (spec 44_index_and_memory.md R190 to R196).
The effective address of access `k` is `I + k`, never wrapped; the whole range is checked before
the first access, so a faulting instruction changes nothing but the latch (R196; log entries 7,
25). -/

namespace Sys2Proof.Machine

/-- ANNN `LD I, addr` (R190). -/
def execLdI (nnn : Addr) (s : State) : Result := .next { s with i := zextAddr nnn }.advance

/-- FX1E `ADD I, Vx`: wraps at 16 bits, `VF` is not written (R191). -/
def execAddI (x : Nibble) (s : State) : Result :=
  .next { s with i := s.i + zextByte (s.getV x) }.advance

/-- FX29 `LD F, Vx` (R192). -/
def execLdF (x : Nibble) (s : State) : Result :=
  .next { s with i := glyphAddress (s.getV x) }.advance

/-- Store bytes at `I`, `I + 1`, … for an instruction, or raise its `MemoryOutOfBounds`
(R193, R194; 60_exceptions.md R255). -/
def storeAtI (by_ : Instr) (bytes : List Byte) (s : State) : Result :=
  match s.mem.storeRange s.i.toNat bytes with
  | .error a => raiseBy by_ .memoryOutOfBounds (some a) s
  | .ok m => .next { s with mem := m }.advance

/-- FX33 `LD B, Vx`: the three decimal digits of `vx` (R193). -/
def execLdB (x : Nibble) (s : State) : Result := storeAtI (.ldB x) (decimalDigits (s.getV x)) s

/-- FX55 `LD [I], Vx`: `V[0..X]` to memory, `I` unmodified (R194). -/
def execStRegs (x : Nibble) (s : State) : Result := storeAtI (.stRegs x) (regsUpTo x s) s

/-- FX65 `LD Vx, [I]`: memory to `V[0..X]`, `I` unmodified (R195). -/
def execLdRegs (x : Nibble) (s : State) : Result :=
  match s.mem.loadRange s.i.toNat (regCount x) with
  | .error a => raiseBy (.ldRegs x) .memoryOutOfBounds (some a) s
  | .ok bytes => .next (s.setVs 0 bytes).advance

end Sys2Proof.Machine
end

