-- ==== Sys2Proof/Machine/KeysTimers.lean ====
section
/-! DEFINITION. Key and timer instructions (spec 46_keys_and_timers.md R230 to R235). -/

namespace Sys2Proof.Machine

/-- EX9E `SKP Vx` (R230). -/
def execSkp (x : Nibble) (s : State) : Result := .next (s.skipIf (keyMatches s.key (s.getV x)))

/-- EXA1 `SKNP Vx`, the exact negation of `SKP` (R231). -/
def execSknp (x : Nibble) (s : State) : Result :=
  .next (s.skipIf (!keyMatches s.key (s.getV x)))

/-- FX07 `LD Vx, DT` (R232). -/
def execLdVxDt (x : Nibble) (s : State) : Result := .next (s.setV x s.dt).advance

/-- FX0A `LD Vx, K`: with no key latched, set `WAIT` and stay on the instruction; else take the
key, which is not consumed, and clear `WAIT` (R233; log entry 13). -/
def execLdVxK (x : Nibble) (s : State) : Result :=
  match s.key with
  | none => .next { s with wait := true }
  | some k => .next ({ s with wait := false }.setV x (k.setWidth 8)).advance

/-- FX15 `LD DT, Vx` (R234). -/
def execLdDtVx (x : Nibble) (s : State) : Result := .next { s with dt := s.getV x }.advance

/-- FX18 `LD ST, Vx` (R235). -/
def execLdStVx (x : Nibble) (s : State) : Result := .next { s with st := s.getV x }.advance

end Sys2Proof.Machine
end

