-- ==== Sys2Proof/Machine/Step.lean ====
section
/-! DEFINITION. One step: halted check, fetch, decode, execute (spec 40_step_cycle.md R120 to R129),
and the host's placing of a word for it. -/

namespace Sys2Proof.Machine

/-- `step` (R120), with the random byte taken from the free values (log entry 5). A halted block is
left as it is (R121; log entry 8); a fault of the fetch or decode stage is latched; otherwise the
decoded instruction's rule runs. What the spec's `step` returns is `State.status` of the next state
(R127). -/
def step (s : State) : Host.Outcome State Fault Refusal :=
  if s.halted then .next s
  else
    match fetchInstr s with
    | .error r => .next (s.latch r)
    | .ok i => exec i s

/-- `s` with a table word placed so that the very next step fetches and runs it (log entry 21). -/
def State.withFetchWord (s : State) (nbits w : Nat) : State := s.placeWord (tableWord nbits w)

end Sys2Proof.Machine
end

