-- ==== Sys2Proof/Machine/HostOps.lean ====
section
/-! DEFINITION. The six operations through which the host reaches the block (spec 10_state.md R35;
60_exceptions.md R262 to R267; 70_reset_and_hazards.md R290 to R294), and a run as the sequence of
operations the host chooses.

They are functions on the state beside `step`: they happen strictly between steps, in any number
and any order (R262; log entry 20). What the spec gives as an argument is one here: the open
parameters of 00_scope.md R6 (log entries 1, 2) and the random byte of `step(rnd)` (log entry 5). None of
them reads or moves the host's counter `draws`: each is an operation on the `Block` alone
(`HostOp.onBlock`), which stores nothing of its arguments (10_state.md R34). -/

namespace Sys2Proof.Machine

/-! ### Reset and load (R290 to R294) -/

/-- `reset` of an empty image: everything the block stores is discarded, and the font `p.font` is copied
to `FONT_BASE` (10_state.md R31, R37; R290). At the default font the block is that of `State.reset`. -/
def emptyReset (p : OpenParams) (s : State) : State :=
  { s with
    toBlock := { Block.reset with mem := Block.reset.mem.setRange config.fontBase p.font.toList } }

/-- `reset(image)`: the image copied verbatim to `PROG_BASE` in the state of an empty image; or,
when it is longer than `PROG_MAX`, the halted state with `LoadError` and everything else as after
an empty image (R291 to R293, R260; log entry 22). -/
def resetWith (p : OpenParams) (image : List Byte) (s : State) : State :=
  let s := emptyReset p s
  if image.length > config.progMax then
    s.latch { code := .loadError, word := none, pc := none, addr := none }
  else { s with mem := s.mem.setRange config.progBase image }

/-! ### Key latch and timers (R263, R264) -/

/-- `set_key(k)`: replaces the latch unless the block is halted (R264, R257). -/
def setKey (k : Option Nibble) (s : State) : State := if s.halted then s else { s with key := k }

/-- One tick of one timer: down by 1, floored at zero (R263). -/
def tickDown (t : Byte) : Byte := if t.toNat > 0 then t - 1 else t

/-- `tick_timers()`: both timers, unless the block is halted (R263, R257). -/
def tickTimers (s : State) : State :=
  if s.halted then s else { s with dt := tickDown s.dt, st := tickDown s.st }

/-! ### Exports (R265, R266) -/

/-- `read_display()`: the 2048 pixels row by row, so that element `64·y + x` is pixel `(x, y)`
(R265, 20_memory.md R75). -/
def readDisplay (s : State) : List Bool :=
  s.disp.toList.flatMap fun row => (List.range 64).map row.getLsbD

/-- `read_sound()`: `ST` (R266). -/
def readSound (s : State) : Byte := s.st

/-! ### The spec's `step(rnd)` -/

/-- The execute stage with its arguments: `SHIFT_SOURCE`, which only 8XY6 and 8XYE use (R168, R170),
and the host's random byte, which only CXNN uses (40_step_cycle.md R128). -/
def execWith (p : OpenParams) (rnd : Byte) (i : Instr) (s : State) : Result :=
  match i with
  | .shr x y => shiftRight p.shiftSource x y s
  | .shl x y => shiftLeft p.shiftSource x y s
  | .rnd x nn => randomByte rnd x nn s
  | i => exec i s

/-- `step(rnd)` with its arguments, for claims about every setting of the open parameters and every
sequence of draws (R120, R128). It stores neither (10_state.md R34). -/
def stepWith (p : OpenParams) (rnd : Byte) (s : State) : Result :=
  if s.halted then .next s
  else
    match fetchInstr s with
    | .error r => .next (s.latch r)
    | .ok i => execWith p rnd i s

/-! ### Runs -/

/-- An operation of the host, with its argument (R35). -/
inductive HostOp where
  | reset (image : List Byte)
  | step (rnd : Byte)
  | setKey (k : Option Nibble)
  | tickTimers
  | readDisplay
  | readSound
  deriving DecidableEq, Repr

/-- The change of state of one operation (R35, R36), on a block with the open parameters `p`. -/
def HostOp.apply (p : OpenParams) (op : HostOp) (s : State) : Result :=
  match op with
  | .reset image => .next (resetWith p image s)
  | .step rnd => stepWith p rnd s
  | .setKey k => .next (Machine.setKey k s)
  | .tickTimers => .next (Machine.tickTimers s)
  | .readDisplay => .next s
  | .readSound => .next s

/-- The same operation on the block alone, beside a host at any place of its own sequence (here 0):
the operation neither reads nor moves that place. -/
def HostOp.onBlock (p : OpenParams) (op : HostOp) (b : Block) : Host.Outcome Block Fault Refusal :=
  match op.apply p { b with draws := 0 } with
  | .next t => .next t.toBlock
  | .fault r => .fault r
  | .refused r => .refused r

/-- The operations of a run, one after the other, in the order the host chose (R262). -/
def runOps (p : OpenParams) : List HostOp → State → Result
  | [], s => .next s
  | op :: ops, s =>
    match op.apply p s with
    | .next t => runOps p ops t
    | .fault r => .fault r
    | .refused r => .refused r

end Sys2Proof.Machine
end

