-- ==== Sys2Proof/Safety.lean ====
section
/-! DEFINITION. The vocabulary of the claims: the elements of the state and what a step may change,
what it is to raise a fault, the word sets of the illegal space, the pixels a sprite covers, and
the invariants. A safe run is one whose states are all not halted: "*Halted*: `FAULT` ≠ `none`. This
is a failure, never a successful end" (spec 70_reset_and_hazards.md R301). -/

namespace Sys2Proof.Machine

/-! ### Safe states -/

/-- Not halted (R257, R301). -/
def Safe (s : State) : Prop := s.fault = none

/-- Finished in the sense of R301(b): the word at `PC` is 1NNN with `NNN` = `PC` (log entry 28). -/
def Parked (s : State) : Prop :=
  s.fault = none ∧ ∃ nnn, fetchInstr s = .ok (.jp nnn) ∧ nnn.toNat = s.pc.toNat

/-! ### Frames -/

/-- The elements of the state, one by one: the rows of R20, each array cell by cell, and the host's
counter. -/
inductive Elem where
  | v (r : Nibble)
  | i
  | pc
  | stack (k : Nat)
  | sp
  | dt
  | st
  | key
  | wait
  | fault
  | pixel (x : Fin 64) (y : Fin 32)
  | cell (a : Nat)
  | draws
  deriving DecidableEq, Repr

/-- The element holds the same in both states; memory is compared by the read of one byte. -/
def Elem.Same (s t : State) : Elem → Prop
  | .v r => t.getV r = s.getV r
  | .i => t.i = s.i
  | .pc => t.pc = s.pc
  | .stack k => t.stack[k]? = s.stack[k]?
  | .sp => t.sp = s.sp
  | .dt => t.dt = s.dt
  | .st => t.st = s.st
  | .key => t.key = s.key
  | .wait => t.wait = s.wait
  | .fault => t.fault = s.fault
  | .pixel x y => lit t.disp x y = lit s.disp x y
  | .cell a => t.mem.get a = s.mem.get a
  | .draws => t.draws = s.draws

/-- Every element outside `written` is unchanged from `s` to `t`. -/
def ChangesOnly (written : Elem → Prop) (s t : State) : Prop := ∀ e, ¬ written e → e.Same s t

/-- `t` is `s` after `raise code` (60_exceptions.md R256): the record names the word, the `PC` of the
faulting instruction and the address, and nothing but the latch changed. -/
def Raised (code : FaultCode) (word : Option Word) (addr : Option Nat) (s t : State) : Prop :=
  t.fault = some ⟨code, word, some s.pc, addr⟩ ∧ ChangesOnly (fun e => e = .fault) s t

/-! ### The illegal space (30_encoding.md R97, R98) -/

/-- The five sets of R97, on the fields of the word as numbers. -/
def IllegalWord (w : Word) : Prop :=
  let op := w.toNat / 4096
  let n := w.toNat % 16
  let nn := w.toNat % 256
  (op = 5 ∧ n ≠ 0) ∨
  (op = 8 ∧ n ∈ [0x8, 0x9, 0xA, 0xB, 0xC, 0xD, 0xF]) ∨
  (op = 9 ∧ n ≠ 0) ∨
  (op = 0xE ∧ nn ∉ [0x9E, 0xA1]) ∨
  (op = 0xF ∧ nn ∉ [0x07, 0x0A, 0x15, 0x18, 0x1E, 0x29, 0x33, 0x55, 0x65])

/-- The 0NNN space of R98. -/
def SysWord (w : Word) : Prop := w.toNat / 4096 = 0 ∧ w ≠ 0x00E0 ∧ w ≠ 0x00EE

/-! ### Sprites (45_display.md R211, R212) -/

/-- The pixel lies under a 1 bit of the `N`-row sprite at `I`, drawn at `(V[X], V[Y])`. -/
def SpriteCovers (s : State) (x y n : Nibble) (px : Fin 64) (py : Fin 32) : Prop :=
  ∃ r c : Nat, r < n.toNat ∧ c < 8 ∧ (s.mem.get (s.i.toNat + r)).getLsbD (7 - c) = true ∧
    px.val = ((s.getV x).toNat + c) % 64 ∧ py.val = ((s.getV y).toNat + r) % 32

/-! ### Stores and register writers -/

/-- The contents of memory after a store of `bs` at `I`: the stored byte inside the range, the old byte
outside it (20_memory.md R63, R67). -/
def overlaid (s : State) (bs : List Byte) (a : Nat) : Byte :=
  if s.i.toNat ≤ a then bs[a - s.i.toNat]?.getD (s.mem.get a) else s.mem.get a

/-- The instruction may write `V[r]`: the rows "write" of the table of 10_state.md R21. -/
def writesV (i : Instr) (r : Nibble) : Prop :=
  match i with
  | .ldImm x _ | .addImm x _ | .ldReg x _ | .orReg x _ | .andReg x _ | .xorReg x _ | .rnd x _
  | .ldVxDt x | .ldVxK x => r = x
  | .addReg x _ | .sub x _ | .shr x _ | .subn x _ | .shl x _ => r = x ∨ r = vf
  | .drw _ _ _ => r = vf
  | .ldRegs x => r.toNat ≤ x.toNat
  | .cls | .ret | .sys _ | .jp _ | .call _ | .seImm _ _ | .sneImm _ _ | .seReg _ _ | .sneReg _ _
  | .ldI _ | .jpV0 _ | .skp _ | .sknp _ | .ldDtVx _ | .ldStVx _ | .addI _ | .ldF _ | .ldB _
  | .stRegs _ => False

/-! ### Invariants -/

/-- What every state of a run has: memory in canonical form; `PC` at most 0x10FE, "the largest value
any rule can write" (R24); and every live stack entry the address of an executed 2NNN, at most
0xFFE (41_control_flow.md R140). -/
abbrev RunInv (s : State) : Prop :=
  s.mem.wf ∧ s.pc.toNat ≤ 0x10FE ∧
    ∀ k : Fin 16, k.val < s.sp.val → s.stack[k.val].toNat ≤ 0xFFE

/-- "While `WAIT` = 1, `PC` still addresses the FX0A instruction" (10_state.md R29), and the block is
not halted. -/
def WaitInv (s : State) : Prop :=
  s.wait = true → s.fault = none ∧ ∃ x, fetchInstr s = .ok (.ldVxK x)

/-- `PC` and the live stack entries are even (70_reset_and_hazards.md R303). -/
def EvenPc (s : State) : Prop :=
  s.pc.toNat % 2 = 0 ∧ ∀ k : Fin 16, k.val < s.sp.val → s.stack[k.val].toNat % 2 = 0

/-- The premise of R303 on one executed instruction: its target is even. -/
def EvenTarget (i : Instr) (s : State) : Prop :=
  match i with
  | .jp nnn => nnn.toNat % 2 = 0
  | .call nnn => nnn.toNat % 2 = 0
  | .jpV0 nnn => (nnn.toNat + (s.getV 0).toNat) % 2 = 0
  | _ => True

/-- Two states that agree on everything but dead stack entries, those at index `SP` and above
(R25). -/
def SameButDeadStack (s t : State) : Prop :=
  t = { s with stack := t.stack } ∧ ∀ k : Fin 16, k.val < s.sp.val → t.stack[k.val] = s.stack[k.val]

/-- The state with other contents of the two elements that no instruction reads: the sound timer
(R27) and the wait flag (R29). -/
def withSoundAndWait (st : Byte) (wait : Bool) (s : State) : State :=
  { s with st := st, wait := wait }

end Sys2Proof.Machine
end

