-- ==== Sys2Proof/Certificates/Slice0/Obligations.lean ====
section
/-! DEFINITION. The statements for the provers, in the order of OBLIGATIONS.json. Each says in its
docstring which rule of spec/ it formalises, or which decision of the spec (a log entry of
notes/assumptions/) it rests on. `ChangesOnly` is the frame: every element of the state outside the
named ones is unchanged. -/

open Sys2Proof Sys2Proof.Machine

/-! ### Encoding -/

/-- The words that 95_test_vectors.md section 2.9 and 30_encoding.md R97, R98 spell out decode as
said there. -/
def Obligations.SampleWordsDecode : Prop :=
  decodeWord 0xD7A3 = .ok (.drw 7 0xA 3) ∧ decodeWord 0x8AB4 = .ok (.addReg 0xA 0xB) ∧
  decodeWord 0xF165 = .ok (.ldRegs 1) ∧ decodeWord 0x00E0 = .ok .cls ∧
  decodeWord 0x00EE = .ok .ret ∧ decodeWord 0x01E0 = .ok (.sys 0x1E0) ∧
  decodeWord 0x0000 = .ok (.sys 0) ∧ decodeWord 0x2300 = .ok (.call 0x300) ∧
  decodeWord 0x332A = .ok (.seImm 3 0x2A) ∧ decodeWord 0xE4A1 = .ok (.sknp 4) ∧
  decodeWord 0x5121 = .error (.illegal 0x5121) ∧ decodeWord 0x812F = .error (.illegal 0x812F)

/-- Decoding an encoded well-formed instruction gives it back, as a word and as the first two bytes
of any byte sequence (R94, R96; R90 for the bytes left over). -/
def Obligations.DecodeOfEncodeIsIdentity : Prop :=
  ∀ i : Instr, i.WellFormed →
    decodeWord (encode i) = .ok i ∧ ∀ rest, decode (encodeBytes i ++ rest) = .ok (i, rest)

/-- Every word has at most one meaning: what decodes is well formed and encodes to that very word,
so no bit of a word is ignored (R95, R99). -/
def Obligations.EncodeOfDecodeIsIdentity : Prop :=
  ∀ (w : Word) (i : Instr), decodeWord w = .ok i → i.WellFormed ∧ encode i = w

/-- The words that decode to nothing are exactly the five sets of R97, and the error names the
word. The sets 5XYn and 9XYn are decision D20 (log entry 16). -/
def Obligations.IllegalWordsAreTheFiveSets : Prop :=
  ∀ w : Word, (decodeWord w = .error (.illegal w) ↔ IllegalWord w) ∧
    (¬ IllegalWord w → ∃ i, decodeWord w = .ok i)

/-- The decoder of R94 agrees with the mask and match columns of R96: a word decodes into a row
exactly when `w AND mask = match`, with the exception noted for 0NNN. -/
def Obligations.DecoderAgreesWithPatternTable : Prop :=
  ∀ (w : Word) (j : Instr),
    (∃ i, decodeWord w = .ok i ∧ patternRow i = patternRow j) ↔
      (w &&& (patternRow j).mask = (patternRow j).value ∧
        (patternRow j = patternRow (.sys 0) → w ≠ 0x00E0 ∧ w ≠ 0x00EE))

/-! ### The step -/

/-- R120: when the block is not halted and the two bytes at `PC`, both inside memory, are the word of
an instruction, big-endian, the step runs that instruction's rule on the same state. -/
def Obligations.StepRunsTheDecodedInstruction : Prop :=
  ∀ (s : State) (i : Instr), s.fault = none → s.pc.toNat + 1 < config.memSize →
    decodeWord (wordOfBytes (s.mem.get s.pc.toNat) (s.mem.get (s.pc.toNat + 1))) = .ok i →
    step s = exec i s

/-- The model's choice of log entry 8 (the spec's decision D10, R121): a halted block is left exactly
as it is, and its status is `FAULT`. -/
def Obligations.StepLeavesAHaltedBlock : Prop :=
  ∀ (s : State) (r : FaultRecord), s.fault = some r → step s = .next s ∧ s.status = .fault

/-- R64, with the record of decision D29 (log entry 9): a fetch at `PC ≥ MEM_SIZE` reports `PC`, one
at `MEM_SIZE − 1` reports `MEM_SIZE`; neither records a word, and nothing else changes. -/
def Obligations.FetchOutsideMemoryFaults : Prop :=
  ∀ s : State, s.fault = none →
    (config.memSize ≤ s.pc.toNat →
      ∃ t, step s = .next t ∧ Raised .memoryOutOfBounds none (some s.pc.toNat) s t) ∧
    (s.pc.toNat = config.memSize - 1 →
      ∃ t, step s = .next t ∧ Raised .memoryOutOfBounds none (some config.memSize) s t)

/-- R252: `UnsupportedOpcode` is raised, with the raw word and `PC`, exactly when the fetched word is
one of those of R97 and R98. The sets 5XYn and 9XYn are decision D20 (log entry 16), the record's
layout D12 (log entry 9). -/
def Obligations.UnsupportedOpcodeExactly : Prop :=
  ∀ (s : State) (w : Word), s.fault = none → fetchWord s = .ok w →
    ∃ t, step s = .next t ∧
      (IllegalWord w ∨ SysWord w → t.fault = some ⟨.unsupportedOpcode, some w, some s.pc, none⟩) ∧
      (∀ r, t.fault = some r → r.code = .unsupportedOpcode → IllegalWord w ∨ SysWord w)

/-- R129: `step` is defined on every state, for every byte the host supplies and every setting of the
open parameters. -/
def Obligations.StepIsDefinedOnEveryState : Prop :=
  ∀ (s : State) (p : OpenParams) (rnd : Byte),
    (∃ t, step s = .next t) ∧ (∃ t, stepWith p rnd s = .next t)

/-- The model's choice of log entry 7 (the spec's decision D9, R256): a step that raises a fault
changes nothing but the latch. -/
def Obligations.FaultsArePrecise : Prop :=
  ∀ s t : State, s.fault = none → step s = .next t → t.fault ≠ none →
    t = { s with fault := t.fault }

/-- The record of a fault (R30, R251, with decisions D9, D12, D29; log entries 7, 9): it names the
`PC` of the step, the very word the step fetched, and an address for `MemoryOutOfBounds` only. -/
def Obligations.FaultRecordNamesWordAndPc : Prop :=
  ∀ (s t : State) (r : FaultRecord), s.fault = none → step s = .next t → t.fault = some r →
    r.pc = some s.pc ∧ (∀ w, fetchWord s = .ok w → r.word = some w) ∧
    (∀ a, fetchWord s = .error a → r.word = none) ∧
    (r.addr ≠ none ↔ r.code = .memoryOutOfBounds) ∧ r.code ≠ .loadError

/-- The execute stage's column of R251, with the exact ranges of decision D8 (log entry 25): which
instruction raises which fault, and when. -/
def Obligations.FaultsComeFromTheirInstructions : Prop :=
  ∀ (i : Instr) (s t : State) (r : FaultRecord), s.fault = none → exec i s = .next t →
    t.fault = some r →
      ((∃ nnn, i = .sys nnn) ∧ r.code = .unsupportedOpcode ∧ r.addr = none) ∨
      ((∃ nnn, i = .call nnn) ∧ s.sp.val = 16 ∧ r.code = .stackOverflow ∧ r.addr = none) ∨
      (i = .ret ∧ s.sp.val = 0 ∧ r.code = .stackUnderflow ∧ r.addr = none) ∨
      (∃ n : Nat, ((∃ x, i = .ldB x ∧ n = 3) ∨ (∃ x, i = .stRegs x ∧ n = x.toNat + 1) ∨
          (∃ x, i = .ldRegs x ∧ n = x.toNat + 1) ∨
          (∃ x y h, i = .drw x y h ∧ n = h.toNat ∧ 1 ≤ n)) ∧
        config.memSize ≤ s.i.toNat + n - 1 ∧ r.code = .memoryOutOfBounds ∧
        r.addr = some (max s.i.toNat config.memSize))

/-- The table of R24 (R125), with the conditions of the six skips (R150 to R153, R230, R231): the new
`PC` of a step that completes its instruction. The `+ 2` and `+ 4` are those of the 16-bit register
(log entry 26), the key skips compare all 8 bits by decision D17 (log entry 14), and FX0A looks at the
level of the latch by decision D16 (log entry 13). -/
def Obligations.PcFollowsTheTable : Prop :=
  ∀ (i : Instr) (s t : State), s.fault = none → exec i s = .next t → t.fault = none →
    match i with
    | .jp nnn => t.pc.toNat = nnn.toNat
    | .call nnn => t.pc.toNat = nnn.toNat
    | .jpV0 nnn => t.pc.toNat = nnn.toNat + (s.getV 0).toNat
    | .ret => ∃ site, s.stack[s.sp.val - 1]? = some site ∧ t.pc = site + 2
    | .seImm x nn => t.pc = if (s.getV x).toNat = nn.toNat then s.pc + 4 else s.pc + 2
    | .sneImm x nn => t.pc = if (s.getV x).toNat ≠ nn.toNat then s.pc + 4 else s.pc + 2
    | .seReg x y => t.pc = if (s.getV x).toNat = (s.getV y).toNat then s.pc + 4 else s.pc + 2
    | .sneReg x y => t.pc = if (s.getV x).toNat ≠ (s.getV y).toNat then s.pc + 4 else s.pc + 2
    | .skp x =>
      t.pc = if s.key.map BitVec.toNat = some (s.getV x).toNat then s.pc + 4 else s.pc + 2
    | .sknp x =>
      t.pc = if s.key.map BitVec.toNat = some (s.getV x).toNat then s.pc + 2 else s.pc + 4
    | .ldVxK _ => t.pc = if s.key = none then s.pc else s.pc + 2
    | _ => t.pc = s.pc + 2

/-- The status table of R127, for a state in which a set `WAIT` stands on its FX0A (`WaitInv`, an
invariant of every run): the status of the state left says what the step did. -/
def Obligations.StatusSaysWhatTheStepDid : Prop :=
  ∀ s t : State, WaitInv s → step s = .next t →
    (t.status = .fault ↔ t.fault ≠ none) ∧
    (t.status = .ok → t.fault = none ∧ t.wait = false) ∧
    (t.status = .waiting → t.fault = none ∧ t.wait = true ∧ s.key = none ∧
      (∃ x, fetchInstr s = .ok (.ldVxK x)) ∧ ChangesOnly (fun e => e = .wait) s t)

/-! ### Rules of the whole machine -/

/-- The state after reset meets the invariants (R37). `SP`, the stack, `WAIT` and `FAULT` at reset are
decision D19 (log entry 17). -/
def Obligations.ResetMeetsInvariants : Prop :=
  RunInv State.reset ∧ WaitInv State.reset ∧ EvenPc State.reset ∧ Safe State.reset

/-- Every step keeps memory canonical, `PC` at most 0x10FE (R24) and live stack entries at most 0xFFE
(R140). -/
def Obligations.StepKeepsInvariant : Prop :=
  ∀ s t : State, RunInv s → step s = .next t → RunInv t

/-- Every operation of the host, with every argument and at every setting of the open parameters, keeps
the same invariant (R35). -/
def Obligations.HostOperationsKeepInvariant : Prop :=
  ∀ (p : OpenParams) (op : HostOp) (s t : State), RunInv s → op.apply p s = .next t → RunInv t

/-- R29 and R127: in every run of host operations, while `WAIT` = 1 the block is not halted and `PC`
addresses an FX0A. -/
def Obligations.WaitingBlockStandsOnItsKeyWait : Prop :=
  ∀ (p : OpenParams) (op : HostOp) (s t : State), WaitInv s → op.apply p s = .next t → WaitInv t

/-- R35, R262: from the load of any image, in any state, every sequence of host operations, with any
bytes, keys and ticks in between and at every setting of the open parameters, runs to its end and reaches
a state that meets the invariants. That every interleaving is allowed is decision D22 (log entry 20); the reset
values the run starts from are decision D19 (log entry 17). -/
def Obligations.EveryRunMeetsTheInvariants : Prop :=
  ∀ (p : OpenParams) (image : List Byte) (ops : List HostOp) (s : State),
    ∃ t, runOps p ops (resetWith p image s) = .next t ∧ RunInv t ∧ WaitInv t

/-- R36, R21, R22 and R145(e), the writers of each element: the key latch has no writer in a step; `DT`
and `ST` have FX15 and FX18; memory FX33 and FX55; the display DXYN and 00E0; `SP` and `STACK` 2NNN and
00EE; `WAIT` FX0A; `I` ANNN, FX1E and FX29; `V[r]` those that name it as `X`, FX65 with `r ≤ X`, and for
`VF` the six that write it implicitly; `PC` other than by `+ 2` and `+ 4` the four transfers; `FAULT`
the seven that can raise one. That FX0A leaves `KEY` is decision D16 (log entry 13); that 8XY1 to 8XY3
leave `VF` is decision D28 (log entry 11); `draws` is the host's counter (log entry 5). -/
def Obligations.EachElementHasItsWriters : Prop :=
  ∀ (i : Instr) (s t : State), exec i s = .next t →
    t.key = s.key ∧
    (t.dt ≠ s.dt → ∃ x, i = .ldDtVx x) ∧ (t.st ≠ s.st → ∃ x, i = .ldStVx x) ∧
    (∀ a, t.mem.get a ≠ s.mem.get a → ∃ x, i = .ldB x ∨ i = .stRegs x) ∧
    (∀ px py, lit t.disp px py ≠ lit s.disp px py → i = .cls ∨ ∃ x y n, i = .drw x y n) ∧
    (t.sp ≠ s.sp ∨ t.stack ≠ s.stack → i = .ret ∨ ∃ nnn, i = .call nnn) ∧
    (t.wait ≠ s.wait → ∃ x, i = .ldVxK x) ∧
    (t.i ≠ s.i → (∃ nnn, i = .ldI nnn) ∨ ∃ x, i = .addI x ∨ i = .ldF x) ∧
    (∀ r, t.getV r ≠ s.getV r → writesV i r) ∧
    (t.pc ≠ s.pc ∧ t.pc ≠ s.pc + 2 ∧ t.pc ≠ s.pc + 4 →
      i = .ret ∨ ∃ nnn, i = .jp nnn ∨ i = .call nnn ∨ i = .jpV0 nnn) ∧
    (t.fault ≠ s.fault → i = .ret ∨ (∃ nnn, i = .sys nnn ∨ i = .call nnn) ∨
      (∃ x, i = .ldB x ∨ i = .stRegs x ∨ i = .ldRegs x) ∨ ∃ x y n, i = .drw x y n) ∧
    (t.draws ≠ s.draws → ∃ x nn, i = .rnd x nn)

/-- R303: a step whose instruction has an even target keeps `PC` and the live stack entries even. -/
def Obligations.EvenTargetsKeepPcEven : Prop :=
  ∀ s t : State, EvenPc s → (∀ i, fetchInstr s = .ok i → EvenTarget i s) → step s = .next t →
    EvenPc t

/-- R301(b), the spec's decision D26 (log entry 28): a parked state is mapped to itself. -/
def Obligations.ParkedStateIsMappedToItself : Prop :=
  ∀ s : State, Parked s → step s = .next s

/-- R25 and R38: dead stack entries are never read. Two states that differ only in entries at `SP`
and above step to states that differ only so. That those are the dead entries is decision D14 (log
entry 18). -/
def Obligations.DeadStackEntriesAreNeverRead : Prop :=
  ∀ s s' t : State, SameButDeadStack s s' → step s = .next t →
    ∃ t', step s' = .next t' ∧ SameButDeadStack t t'

/-- R27 and R29: no instruction reads `ST` or `WAIT`. Changing them changes nothing of what a step
does to every other element. -/
def Obligations.SoundAndWaitSteerNothing : Prop :=
  ∀ (s t : State) (st : Byte) (wait : Bool), step s = .next t →
    ∃ t', step (withSoundAndWait st wait s) = .next t' ∧
      ChangesOnly (fun e => e = .st ∨ e = .wait) t t'

/-- R128, R34, R35: only CXNN uses the random byte; the model's `step` is the spec's `step(rnd)` at the
default `SHIFT_SOURCE` and the host's free byte, up to the host's own counter (the model's choices of
log entries 1 and 5); and every host operation acts on the block alone, which stores none of its
arguments: what it makes of the block depends on the block and the arguments only, whatever the host's
counter, which it leaves as it is. -/
def Obligations.OnlyRndUsesTheRandomByte : Prop :=
  (∀ (p : OpenParams) (s : State) (r r' : Byte), (∀ x nn, fetchInstr s ≠ .ok (.rnd x nn)) →
    stepWith p r s = stepWith p r' s) ∧
  (∀ (p : OpenParams) (s t : State), p.shiftSource = config.shiftSource → step s = .next t →
    stepWith p s.rndInput s = .next { t with draws := s.draws }) ∧
  ∀ (p : OpenParams) (op : HostOp) (s : State),
    ∃ b : Block, op.onBlock p s.toBlock = .next b ∧ op.apply p s = .next { s with toBlock := b }

/-- R73 and R300: what FX33 and FX55 store is what a fetch in the next state sees, at every `PC`, byte
by byte: the stored byte inside the stored range (of any length, from one byte to sixteen, overlapping
the fetched word in full, in one byte or not at all), the old byte outside it. That a store is seen by
the very next fetch is decision D21 (log entry 19). -/
def Obligations.StoredBytesAreFetchedNext : Prop :=
  ∀ (x : Nibble) (s t : State) (pc : Word), t.fault = none → pc.toNat + 1 < config.memSize →
    (exec (.ldB x) s = .next t →
      let after := overlaid s (decimalDigits (s.getV x))
      fetchWord { t with pc := pc } = .ok (wordOfBytes (after pc.toNat) (after (pc.toNat + 1)))) ∧
    (exec (.stRegs x) s = .next t →
      let after := overlaid s (regsUpTo x s)
      fetchWord { t with pc := pc } = .ok (wordOfBytes (after pc.toNat) (after (pc.toNat + 1))))

/-! ### Control transfer -/

/-- R142. -/
def Obligations.JumpSetsPc : Prop :=
  ∀ (nnn : Addr) (s : State), ∃ t, exec (.jp nnn) s = .next t ∧ t.pc.toNat = nnn.toNat ∧
    ChangesOnly (fun e => e = .pc) s t

/-- R144: the sum is not reduced, and register 0 is the addend whatever `X` is. -/
def Obligations.JumpOffsetAddsRegisterZero : Prop :=
  ∀ (nnn : Addr) (s : State), ∃ t, exec (.jpV0 nnn) s = .next t ∧
    t.pc.toNat = nnn.toNat + (s.getV 0).toNat ∧ ChangesOnly (fun e => e = .pc) s t

/-- R143: with room, the call site is pushed and control is at `NNN`; at `SP` = 16 `StackOverflow`
is raised and nothing else changes. What the record holds and that nothing else changes follow
decisions D9 and D12 (log entries 7, 9). -/
def Obligations.CallPushesTheCallSite : Prop :=
  ∀ (nnn : Addr) (s : State),
    (s.sp.val < 16 → ∃ t, exec (.call nnn) s = .next t ∧ t.stack[s.sp.val]? = some s.pc ∧
      t.sp.val = s.sp.val + 1 ∧ t.pc.toNat = nnn.toNat ∧
      ChangesOnly (fun e => e = .pc ∨ e = .sp ∨ e = .stack s.sp.val) s t) ∧
    (s.sp.val = 16 → ∃ t, exec (.call nnn) s = .next t ∧
      Raised .stackOverflow (some (encode (.call nnn))) none s t)

/-- R140: with an entry, it is popped and control is 2 after it; at `SP` = 0 `StackUnderflow` is
raised and nothing else changes. What the record holds and that nothing else changes follow
decisions D9 and D12 (log entries 7, 9). The `+ 2` is that of the 16-bit register (log
entry 26). -/
def Obligations.ReturnPopsTheCallSite : Prop :=
  ∀ s : State,
    (0 < s.sp.val → ∃ t, exec .ret s = .next t ∧ t.sp.val = s.sp.val - 1 ∧
      (∃ site, s.stack[s.sp.val - 1]? = some site ∧ t.pc = site + 2) ∧
      ChangesOnly (fun e => e = .pc ∨ e = .sp) s t) ∧
    (s.sp.val = 0 → ∃ t, exec .ret s = .next t ∧
      Raised .stackUnderflow (some (encode .ret)) none s t)

/-- R141: `SYS` always raises `UnsupportedOpcode`, with the word and `PC` recorded, and nothing else
changes. That entry is the instruction's own effect: the spec gives it no other. -/
def Obligations.SysRaisesUnsupportedOpcode : Prop :=
  ∀ (nnn : Addr) (s : State), ∃ t, exec (.sys nnn) s = .next t ∧
    Raised .unsupportedOpcode (some (BitVec.ofNat 16 nnn.toNat)) none s t

/-- R145(a): a `RET` that finds the call's entry on top returns to the instruction after the call
site and restores `SP`. -/
def Obligations.ReturnAfterCall : Prop :=
  ∀ (nnn : Addr) (s t u : State), s.sp.val < 16 → exec (.call nnn) s = .next t →
    u.sp = t.sp → u.stack[s.sp.val]? = some s.pc →
    ∃ w, exec .ret u = .next w ∧ w.pc = s.pc + 2 ∧ w.sp = s.sp

/-! ### Skips -/

/-- R150 and R151. -/
def Obligations.ImmediateSkips : Prop :=
  ∀ (x : Nibble) (nn : Byte) (s : State),
    (∃ t, exec (.seImm x nn) s = .next t ∧
      t.pc = (if (s.getV x).toNat = nn.toNat then s.pc + 4 else s.pc + 2) ∧
      ChangesOnly (fun e => e = .pc) s t) ∧
    (∃ t, exec (.sneImm x nn) s = .next t ∧
      t.pc = (if (s.getV x).toNat ≠ nn.toNat then s.pc + 4 else s.pc + 2) ∧
      ChangesOnly (fun e => e = .pc) s t)

/-- R152 and R153, on register values; the illegal words 5XYn and 9XYn with `n` ≠ 0 decode to
nothing (decision D20, log entry 16). -/
def Obligations.RegisterSkips : Prop :=
  ∀ (x y : Nibble) (s : State),
    (∃ t, exec (.seReg x y) s = .next t ∧
      t.pc = (if (s.getV x).toNat = (s.getV y).toNat then s.pc + 4 else s.pc + 2) ∧
      ChangesOnly (fun e => e = .pc) s t) ∧
    (∃ t, exec (.sneReg x y) s = .next t ∧
      t.pc = (if (s.getV x).toNat ≠ (s.getV y).toNat then s.pc + 4 else s.pc + 2) ∧
      ChangesOnly (fun e => e = .pc) s t) ∧
    (∀ n : Nibble, n ≠ 0 → (∃ e, decodeWord (formatXYN 5 x y n) = .error e) ∧
      ∃ e, decodeWord (formatXYN 9 x y n) = .error e)

/-! ### Register load and ALU -/

/-- R160 and R162. -/
def Obligations.LoadsWriteTheRegister : Prop :=
  ∀ (x y : Nibble) (nn : Byte) (s : State),
    (∃ t, exec (.ldImm x nn) s = .next t ∧ t.getV x = nn ∧ t.pc = s.pc + 2 ∧
      ChangesOnly (fun e => e = .pc ∨ e = .v x) s t) ∧
    (∃ t, exec (.ldReg x y) s = .next t ∧ t.getV x = s.getV y ∧ t.pc = s.pc + 2 ∧
      ChangesOnly (fun e => e = .pc ∨ e = .v x) s t)

/-- R161: the sum wraps at 256 and no flag is written. -/
def Obligations.AddImmediateWraps : Prop :=
  ∀ (x : Nibble) (nn : Byte) (s : State), ∃ t, exec (.addImm x nn) s = .next t ∧
    (t.getV x).toNat = ((s.getV x).toNat + nn.toNat) % 256 ∧ t.pc = s.pc + 2 ∧
    ChangesOnly (fun e => e = .pc ∨ e = .v x) s t

/-- R163 to R165, bit by bit on register values. That `VF` is not written is the model's choice of log
entry 11 (the spec's decision D28). -/
def Obligations.LogicIsBitwise : Prop :=
  ∀ (x y : Nibble) (s : State),
    (∃ t, exec (.orReg x y) s = .next t ∧
      (∀ k < 8, (t.getV x).getLsbD k = ((s.getV x).getLsbD k || (s.getV y).getLsbD k)) ∧
      t.pc = s.pc + 2 ∧ ChangesOnly (fun e => e = .pc ∨ e = .v x) s t) ∧
    (∃ t, exec (.andReg x y) s = .next t ∧
      (∀ k < 8, (t.getV x).getLsbD k = ((s.getV x).getLsbD k && (s.getV y).getLsbD k)) ∧
      t.pc = s.pc + 2 ∧ ChangesOnly (fun e => e = .pc ∨ e = .v x) s t) ∧
    (∃ t, exec (.xorReg x y) s = .next t ∧
      (∀ k < 8, (t.getV x).getLsbD k = ((s.getV x).getLsbD k ^^ (s.getV y).getLsbD k)) ∧
      t.pc = s.pc + 2 ∧ ChangesOnly (fun e => e = .pc ∨ e = .v x) s t)

/-- R166 with R173: the sum mod 256 in `V[X]` for every `X`; the carry in `VF` unless `X` is 15. The
order of sampling and of the two writes is that of decision D7 (log entry 10). -/
def Obligations.AddWithCarryOut : Prop :=
  ∀ (x y : Nibble) (s : State), ∃ t, exec (.addReg x y) s = .next t ∧
    (t.getV x).toNat = ((s.getV x).toNat + (s.getV y).toNat) % 256 ∧
    (x ≠ 15 → (t.getV 15).toNat = if (s.getV x).toNat + (s.getV y).toNat > 255 then 1 else 0) ∧
    t.pc = s.pc + 2 ∧ ChangesOnly (fun e => e = .pc ∨ e = .v x ∨ e = .v 15) s t

/-- R167 and R169 with R173: the difference mod 256 in `V[X]` for every `X`; 1 for no borrow in `VF`
unless `X` is 15. The order of sampling and of the two writes is that of decision D7 (log
entry 10). -/
def Obligations.SubtractWithNoBorrowFlag : Prop :=
  ∀ (x y : Nibble) (s : State),
    (∃ t, exec (.sub x y) s = .next t ∧
      ((t.getV x).toNat : Int) = ((s.getV x).toNat - (s.getV y).toNat) % 256 ∧
      (x ≠ 15 → (t.getV 15).toNat = if (s.getV x).toNat ≥ (s.getV y).toNat then 1 else 0) ∧
      t.pc = s.pc + 2 ∧ ChangesOnly (fun e => e = .pc ∨ e = .v x ∨ e = .v 15) s t) ∧
    (∃ t, exec (.subn x y) s = .next t ∧
      ((t.getV x).toNat : Int) = ((s.getV y).toNat - (s.getV x).toNat) % 256 ∧
      (x ≠ 15 → (t.getV 15).toNat = if (s.getV y).toNat ≥ (s.getV x).toNat then 1 else 0) ∧
      t.pc = s.pc + 2 ∧ ChangesOnly (fun e => e = .pc ∨ e = .v x ∨ e = .v 15) s t)

/-- R168 and R170 with R173, for both settings of `SHIFT_SOURCE` (decision D4, log entry 1), and for
`exec` at the configured one; the order of sampling and of the two writes is that of decision D7 (log
entry 10). -/
def Obligations.ShiftsByOne : Prop :=
  ∀ (p : OpenParams) (rnd : Byte) (x y : Nibble) (s : State),
    let b := (if p.shiftSource = .vy then s.getV y else s.getV x).toNat
    (∃ t, execWith p rnd (.shr x y) s = .next t ∧
      (p.shiftSource = config.shiftSource → exec (.shr x y) s = .next t) ∧
      (t.getV x).toNat = b / 2 ∧ (x ≠ 15 → (t.getV 15).toNat = b % 2) ∧
      t.pc = s.pc + 2 ∧ ChangesOnly (fun e => e = .pc ∨ e = .v x ∨ e = .v 15) s t) ∧
    (∃ t, execWith p rnd (.shl x y) s = .next t ∧
      (p.shiftSource = config.shiftSource → exec (.shl x y) s = .next t) ∧
      (t.getV x).toNat = 2 * b % 256 ∧ (x ≠ 15 → (t.getV 15).toNat = b / 128) ∧
      t.pc = s.pc + 2 ∧ ChangesOnly (fun e => e = .pc ∨ e = .v x ∨ e = .v 15) s t)

/-- R171, for every byte `rnd` the host may supply; and the model's own draw, a free value that no
proof can see, with its counter (log entry 5; decision D5). -/
def Obligations.RandomByteIsMasked : Prop :=
  ∀ (p : OpenParams) (x : Nibble) (nn rnd : Byte) (s : State),
    (∃ t, execWith p rnd (.rnd x nn) s = .next t ∧ t.getV x = rnd &&& nn ∧ t.pc = s.pc + 2 ∧
      ChangesOnly (fun e => e = .pc ∨ e = .v x) s t) ∧
    (∃ t, exec (.rnd x nn) s = .next t ∧ t.getV x = Config.rnd s.draws &&& nn ∧
      t.getV x &&& ~~~nn = 0 ∧ t.draws = s.draws + 1 ∧ t.pc = s.pc + 2 ∧
      ChangesOnly (fun e => e = .pc ∨ e = .v x ∨ e = .draws) s t)

/-! ### Index register and memory -/

/-- R190 and R191: the loaded address is zero-extended; the sum wraps at 16 bits and `VF` is not
written. -/
def Obligations.IndexLoadAndAdd : Prop :=
  ∀ (nnn : Addr) (x : Nibble) (s : State),
    (∃ t, exec (.ldI nnn) s = .next t ∧ t.i.toNat = nnn.toNat ∧ t.pc = s.pc + 2 ∧
      ChangesOnly (fun e => e = .pc ∨ e = .i) s t) ∧
    (∃ t, exec (.addI x) s = .next t ∧ t.i.toNat = (s.i.toNat + (s.getV x).toNat) % 65536 ∧
      t.pc = s.pc + 2 ∧ ChangesOnly (fun e => e = .pc ∨ e = .i) s t)

/-- R192, on the whole 8-bit value (decision D18, log entry 14) with `FONT_BASE` = 0x050 (decision D2,
log entry 3); after a reset with any font the five bytes at a digit's glyph are that font's (R31). -/
def Obligations.FontAddress : Prop :=
  ∀ (p : OpenParams) (x : Nibble) (s : State), ∃ t, exec (.ldF x) s = .next t ∧
    t.i.toNat = 0x050 + 5 * (s.getV x).toNat ∧ t.pc = s.pc + 2 ∧
    ChangesOnly (fun e => e = .pc ∨ e = .i) s t ∧
    ((s.getV x).toNat < 16 → ∀ r < 5,
      some ((emptyReset p s).mem.get (t.i.toNat + r)) = p.font[5 * (s.getV x).toNat + r]?)

/-- R193: the three decimal digits at `I`, `I + 1`, `I + 2`, and every other cell as before; when one
of the three addresses is outside memory, `MemoryOutOfBounds` and no byte written. The record and
the unchanged rest follow decisions D9 and D12 (log entries 7, 9), the exact `I + k` decision D8 (log
entry 25). -/
def Obligations.DecimalStore : Prop :=
  ∀ (x : Nibble) (s : State),
    (s.i.toNat + 2 < config.memSize → ∃ t, exec (.ldB x) s = .next t ∧
      (t.mem.get s.i.toNat).toNat = (s.getV x).toNat / 100 ∧
      (t.mem.get (s.i.toNat + 1)).toNat = (s.getV x).toNat / 10 % 10 ∧
      (t.mem.get (s.i.toNat + 2)).toNat = (s.getV x).toNat % 10 ∧ t.pc = s.pc + 2 ∧
      ChangesOnly (fun e => e = .pc ∨ ∃ k < 3, e = .cell (s.i.toNat + k)) s t) ∧
    (config.memSize ≤ s.i.toNat + 2 → ∃ t, exec (.ldB x) s = .next t ∧
      Raised .memoryOutOfBounds (some (encode (.ldB x))) (some (max s.i.toNat config.memSize)) s t)

/-- R194: `V[0..X]` at `I .. I + X`, every other cell and `I` as before; out of range,
`MemoryOutOfBounds` and no byte written. The record and the unchanged rest follow decisions D9 and
D12 (log entries 7, 9), the exact `I + X` decision D8 (log entry 25). -/
def Obligations.RegisterStore : Prop :=
  ∀ (x : Nibble) (s : State),
    (s.i.toNat + x.toNat < config.memSize → ∃ t, exec (.stRegs x) s = .next t ∧
      (∀ k : Nibble, k.toNat ≤ x.toNat → t.mem.get (s.i.toNat + k.toNat) = s.getV k) ∧
      t.pc = s.pc + 2 ∧
      ChangesOnly (fun e => e = .pc ∨ ∃ k ≤ x.toNat, e = .cell (s.i.toNat + k)) s t) ∧
    (config.memSize ≤ s.i.toNat + x.toNat → ∃ t, exec (.stRegs x) s = .next t ∧
      Raised .memoryOutOfBounds (some (encode (.stRegs x))) (some (max s.i.toNat config.memSize)) s t)

/-- R195: the bytes at `I .. I + X` in `V[0..X]`, the registers above `X`, `I` and memory as before;
out of range, `MemoryOutOfBounds` and no register written. The record and the unchanged rest follow
decisions D9 and D12 (log entries 7, 9), the exact `I + X` decision D8 (log entry 25). -/
def Obligations.RegisterLoad : Prop :=
  ∀ (x : Nibble) (s : State),
    (s.i.toNat + x.toNat < config.memSize → ∃ t, exec (.ldRegs x) s = .next t ∧
      (∀ k : Nibble, k.toNat ≤ x.toNat → t.getV k = s.mem.get (s.i.toNat + k.toNat)) ∧
      t.pc = s.pc + 2 ∧
      ChangesOnly (fun e => e = .pc ∨ ∃ k : Nibble, k.toNat ≤ x.toNat ∧ e = .v k) s t) ∧
    (config.memSize ≤ s.i.toNat + x.toNat → ∃ t, exec (.ldRegs x) s = .next t ∧
      Raised .memoryOutOfBounds (some (encode (.ldRegs x))) (some (max s.i.toNat config.memSize)) s t)

/-- The last sentence of R196: FX55 and later FX65 with the same `X`, unchanged `I` and unchanged
bytes restores `V[0..X]`, whatever the registers hold in between. -/
def Obligations.StoreThenLoadRestores : Prop :=
  ∀ (x : Nibble) (s t u : State), exec (.stRegs x) s = .next t → t.fault = none → u.i = s.i →
    (∀ k ≤ x.toNat, u.mem.get (s.i.toNat + k) = t.mem.get (s.i.toNat + k)) →
    ∃ w, exec (.ldRegs x) u = .next w ∧ ∀ k : Nibble, k.toNat ≤ x.toNat → w.getV k = s.getV k

/-! ### Display -/

/-- R210. -/
def Obligations.ClearTurnsEveryPixelOff : Prop :=
  ∀ s : State, ∃ t, exec .cls s = .next t ∧ (∀ px py, lit t.disp px py = false) ∧
    t.pc = s.pc + 2 ∧ ChangesOnly (fun e => e = .pc ∨ ∃ px py, e = .pixel px py) s t

/-- R211, the drawing loops against their closed form: exactly the pixels under the sprite's 1 bits are
flipped, at wrapped coordinates, and `VF` is 1 exactly when one of them was lit. The range check
before the write of `VF` is decision D9, `N` = 0 is decision D24, and the coordinates are sampled
before `VF` is cleared by decision D7 (log entries 7, 10, 15); the record of the fault is decision D12
and the exact address decision D8 (log entries 9, 25). -/
def Obligations.DrawFlipsExactlyTheSprite : Prop :=
  ∀ (x y n : Nibble) (s : State),
    (n.toNat = 0 ∨ s.i.toNat + n.toNat - 1 < config.memSize → ∃ t, exec (.drw x y n) s = .next t ∧
      (∀ px py, SpriteCovers s x y n px py → lit t.disp px py = !lit s.disp px py) ∧
      ((∃ px py, SpriteCovers s x y n px py ∧ lit s.disp px py = true) → t.getV 15 = 1) ∧
      ((¬ ∃ px py, SpriteCovers s x y n px py ∧ lit s.disp px py = true) → t.getV 15 = 0) ∧
      t.pc = s.pc + 2 ∧
      ChangesOnly (fun e => e = .pc ∨ e = .v 15 ∨
        ∃ px py, e = .pixel px py ∧ SpriteCovers s x y n px py) s t) ∧
    (1 ≤ n.toNat → config.memSize ≤ s.i.toNat + n.toNat - 1 → ∃ t, exec (.drw x y n) s = .next t ∧
      Raised .memoryOutOfBounds (some (encode (.drw x y n))) (some (max s.i.toNat config.memSize)) s t)

/-- R213(b): drawing the same sprite twice at the same place restores the display. -/
def Obligations.DrawTwiceRestoresTheDisplay : Prop :=
  ∀ (x y n : Nibble) (s t u w : State), exec (.drw x y n) s = .next t →
    u.disp = t.disp → u.i = s.i → u.getV x = s.getV x → u.getV y = s.getV y →
    (∀ a, u.mem.get a = s.mem.get a) → exec (.drw x y n) u = .next w →
    w.disp = s.disp

/-! ### Keys and timers -/

/-- R230 and R231, on all 8 bits of `V[X]` (decision D17, log entry 14): `SKP` skips when a key is
latched whose code is the register's value, `SKNP` in every other case. -/
def Obligations.KeySkips : Prop :=
  ∀ (x : Nibble) (s : State),
    (∃ t, exec (.skp x) s = .next t ∧
      ((∃ k, s.key = some k ∧ k.toNat = (s.getV x).toNat) → t.pc = s.pc + 4) ∧
      ((¬ ∃ k, s.key = some k ∧ k.toNat = (s.getV x).toNat) → t.pc = s.pc + 2) ∧
      ChangesOnly (fun e => e = .pc) s t) ∧
    (∃ t, exec (.sknp x) s = .next t ∧
      ((∃ k, s.key = some k ∧ k.toNat = (s.getV x).toNat) → t.pc = s.pc + 2) ∧
      ((¬ ∃ k, s.key = some k ∧ k.toNat = (s.getV x).toNat) → t.pc = s.pc + 4) ∧
      ChangesOnly (fun e => e = .pc) s t)

/-- R233 at the level reading of decision D16 (log entry 13): with no key the step only sets `WAIT`;
with a key it takes it, clears `WAIT`, moves on and leaves the latch. -/
def Obligations.KeyWaitTakesTheLatchedKey : Prop :=
  ∀ (x : Nibble) (s : State),
    (s.key = none → ∃ t, exec (.ldVxK x) s = .next t ∧ t.wait = true ∧
      ChangesOnly (fun e => e = .wait) s t) ∧
    (∀ k, s.key = some k → ∃ t, exec (.ldVxK x) s = .next t ∧ (t.getV x).toNat = k.toNat ∧
      t.wait = false ∧ t.pc = s.pc + 2 ∧
      ChangesOnly (fun e => e = .pc ∨ e = .wait ∨ e = .v x) s t)

/-- R232, R234 and R235. -/
def Obligations.TimerTransfers : Prop :=
  ∀ (x : Nibble) (s : State),
    (∃ t, exec (.ldVxDt x) s = .next t ∧ t.getV x = s.dt ∧ t.pc = s.pc + 2 ∧
      ChangesOnly (fun e => e = .pc ∨ e = .v x) s t) ∧
    (∃ t, exec (.ldDtVx x) s = .next t ∧ t.dt = s.getV x ∧ t.pc = s.pc + 2 ∧
      ChangesOnly (fun e => e = .pc ∨ e = .dt) s t) ∧
    (∃ t, exec (.ldStVx x) s = .next t ∧ t.st = s.getV x ∧ t.pc = s.pc + 2 ∧
      ChangesOnly (fun e => e = .pc ∨ e = .st) s t)

/-! ### Host operations -/

/-- R263 (decisions D10, D25; log entries 8, 20): one tick lowers each timer by 1, floored at zero, and
touches nothing else; a halted block does not tick. -/
def Obligations.TickLowersBothTimers : Prop :=
  ∀ s : State,
    (s.fault = none → (tickTimers s).dt.toNat = s.dt.toNat - 1 ∧
      (tickTimers s).st.toNat = s.st.toNat - 1 ∧
      ChangesOnly (fun e => e = .dt ∨ e = .st) s (tickTimers s)) ∧
    (s.fault ≠ none → tickTimers s = s)

/-- R264 (decisions D10, D31; log entries 8, 20): the last write wins and touches nothing but the latch;
a halted block keeps its latch. -/
def Obligations.SetKeyReplacesTheLatch : Prop :=
  ∀ (s : State) (k k' : Option Nibble),
    (s.fault = none → (setKey k s).key = k ∧ setKey k' (setKey k s) = setKey k' s ∧
      ChangesOnly (fun e => e = .key) s (setKey k s)) ∧
    (s.fault ≠ none → setKey k s = s)

/-- R265 and R266: the export has 2048 pixels with pixel `(x, y)` at element `64·y + x`; the sound
sample is `ST` and no more (decision D30, log entry 20); neither changes anything. -/
def Obligations.ExportsReadTheState : Prop :=
  ∀ s : State, (readDisplay s).length = 2048 ∧
    (∀ (x : Fin 64) (y : Fin 32), (readDisplay s)[64 * y.val + x.val]? = some (lit s.disp x y)) ∧
    readSound s = s.st ∧
    ∀ p, HostOp.readDisplay.apply p s = .next s ∧ HostOp.readSound.apply p s = .next s

/-- R290 to R293 and, for the state of a failed load, decision D27 (R260; log entry 22), at every font:
an image of at most `PROG_MAX` bytes is copied verbatim to 0x200 into the state after an empty reset; a
longer one leaves the block halted with `LoadError` and otherwise in that state. -/
def Obligations.ResetLoadsTheImage : Prop :=
  ∀ (p : OpenParams) (image : List Byte) (s : State),
    (image.length ≤ 3584 →
      (∀ k (h : k < image.length), (resetWith p image s).mem.get (0x200 + k) = image[k]) ∧
      ChangesOnly (fun e => ∃ k < image.length, e = .cell (0x200 + k)) (emptyReset p s)
        (resetWith p image s)) ∧
    (3584 < image.length →
      (resetWith p image s).fault = some ⟨.loadError, none, none, none⟩ ∧
      ChangesOnly (fun e => e = .fault) (emptyReset p s) (resetWith p image s))

/-- The table of R37 for an empty image, every font and every state before it (R290): the entries that
decision D19 supplies are log entry 17, the font's base and default bytes log entries 3 and 2. The host's
counter `draws` is no part of the block and goes on; `State.reset` is this state at the default font, with
a counter of 0 (log entry 5). -/
def Obligations.ResetValues : Prop :=
  (∀ (p : OpenParams) (u : State),
    let s := resetWith p [] u
    (∀ a, s.mem.get a = if 0x050 ≤ a ∧ a ≤ 0x09F then p.font[a - 0x050]?.getD 0 else 0) ∧
    (∀ r, s.getV r = 0) ∧ s.i = 0 ∧ s.pc = 0x200 ∧ s.sp = 0 ∧ (∀ k < 16, s.stack[k]? = some 0) ∧
    s.dt = 0 ∧ s.st = 0 ∧ s.key = none ∧ s.wait = false ∧ s.fault = none ∧
    (∀ x y, lit s.disp x y = false) ∧ s.draws = u.draws) ∧
  (∀ u : State, resetWith config.toOpenParams [] u = { State.reset with draws := u.draws }) ∧
  State.reset.draws = 0

/-- The canonical form of memory is one per contents: canonical memories that read the same at every
address are the same list. -/
def Obligations.EqualReadsAreEqualMemories : Prop :=
  ∀ m m' : Memory, m.wf → m'.wf → (∀ a, m.get a = m'.get a) → m = m'
end

