-- ==== Sys2Proof/Laws/Memory.lean ====
section
/-! SUPPORT. The laws of memory: what a read gives after each operation, that every operation keeps
the canonical form, and the one spec lemma of each range access. -/

namespace Sys2Proof.Machine

@[simp] theorem config_memSize : config.memSize = 4096 := rfl
@[simp] theorem config_progBase : config.progBase = 0x200 := rfl
@[simp] theorem config_fontBase : config.fontBase = 0x050 := rfl
@[simp] theorem config_glyphBytes : config.glyphBytes = 5 := rfl
@[simp] theorem config_progMax : config.progMax = 3584 := rfl

/-! ### Reads after the raw operations -/

@[simp] theorem Memory.get_nil (a : Nat) : Memory.get [] a = Memory.unlisted a := rfl

theorem Memory.get_cons (b : Nat) (v : Byte) (m : Memory) (a : Nat) :
    Memory.get ((b, v) :: m) a = if a = b then v else m.get a := rfl

/-- A cell that is not listed reads as the reset contents. -/
theorem Memory.get_of_not_listed (m : Memory) (a : Nat) (h : ∀ c ∈ m, c.1 ≠ a) :
    m.get a = Memory.unlisted a := by
  induction m with
  | nil => rfl
  | cons c m ih =>
    rw [Memory.get_cons, if_neg (Ne.symm (h c (by simp))), ih fun d hd => h d (by simp [hd])]

/-- A listed cell of a canonical memory reads as its listed byte. -/
theorem Memory.get_of_mem (m : Memory) (c : Host.Cell)
    (hm : m.Pairwise fun c d => c.1 < d.1) (hc : c ∈ m) : m.get c.1 = c.2 := by
  induction m with
  | nil => simp at hc
  | cons d m ih =>
    rw [List.pairwise_cons] at hm
    rcases List.mem_cons.1 hc with rfl | hc
    · rw [Memory.get_cons, if_pos rfl]
    · rw [Memory.get_cons, if_neg (Nat.ne_of_gt (hm.1 c hc)), ih hm.2 hc]

theorem Memory.get_erase (m : Memory) (a b : Nat) :
    (m.erase a).get b = if b = a then Memory.unlisted a else m.get b := by
  by_cases hb : b = a
  · subst hb
    rw [if_pos rfl, Memory.get_of_not_listed]
    intro c hc
    simpa using (List.mem_filter.1 hc).2
  · rw [if_neg hb]
    induction m with
    | nil => rfl
    | cons c m ih =>
      by_cases hc : c.1 = a
      · rw [show Memory.erase (c :: m) a = Memory.erase m a from by simp [Memory.erase, hc], ih,
          Memory.get_cons, if_neg (by omega)]
      · rw [show Memory.erase (c :: m) a = c :: Memory.erase m a from by simp [Memory.erase, hc],
          Memory.get_cons, Memory.get_cons, ih]

theorem Memory.get_insert (m : Memory) (a b : Nat) (v : Byte) (h : ∀ c ∈ m, c.1 ≠ a) :
    (Memory.insert m a v).get b = if b = a then v else m.get b := by
  induction m with
  | nil => rfl
  | cons c m ih =>
    have hc := h c (by simp)
    rw [Memory.insert]
    split
    · rfl
    · rw [Memory.get_cons, Memory.get_cons, ih fun d hd => h d (by simp [hd])]
      by_cases h1 : b = a
      · rw [if_neg (by omega), if_pos h1, if_pos h1]
      · rw [if_neg h1, if_neg h1]

theorem Memory.not_mem_erase (m : Memory) (a : Nat) : ∀ c ∈ m.erase a, c.1 ≠ a := by
  intro c hc
  simpa using (List.mem_filter.1 hc).2

/-- Read after write: the written byte at its address, the old byte everywhere else. -/
@[simp] theorem Memory.get_set (m : Memory) (a b : Nat) (v : Byte) :
    (m.set a v).get b = if b = a then v else m.get b := by
  rw [Memory.set]
  split
  · next h => rw [Memory.get_erase, h]
  · rw [Memory.get_insert _ _ _ _ (m.not_mem_erase a), Memory.get_erase]
    split <;> rfl

/-- After a range write, an address in the range reads its byte and every other reads as before. -/
theorem Memory.get_setRange (m : Memory) (a b : Nat) (vs : List Byte) :
    (m.setRange a vs).get b = if a ≤ b then (vs[b - a]?).getD (m.get b) else m.get b := by
  induction vs generalizing m a with
  | nil => simp [Memory.setRange]
  | cons v vs ih =>
    rw [Memory.setRange, ih, Memory.get_set]
    by_cases h1 : b = a
    · subst h1; simp
    · by_cases h2 : a ≤ b
      · have h3 : b - a = (b - (a + 1)) + 1 := by omega
        simp [h1, h2, h3, show a + 1 ≤ b by omega]
      · simp [h1, h2, show ¬ a + 1 ≤ b by omega]

theorem Memory.get_setRange_outside (m : Memory) (a b : Nat) (vs : List Byte)
    (h : b < a ∨ a + vs.length ≤ b) : (m.setRange a vs).get b = m.get b := by
  rw [Memory.get_setRange]
  split
  · rw [List.getElem?_eq_none (by omega)]; rfl
  · rfl

@[simp] theorem Memory.length_getRange (m : Memory) (a n : Nat) : (m.getRange a n).length = n := by
  induction n generalizing a with
  | zero => rfl
  | succ n ih => simp [Memory.getRange, ih]

theorem Memory.getElem?_getRange (m : Memory) (a n k : Nat) :
    (m.getRange a n)[k]? = if k < n then some (m.get (a + k)) else none := by
  induction n generalizing a k with
  | zero => simp [Memory.getRange]
  | succ n ih =>
    cases k with
    | zero => simp [Memory.getRange]
    | succ k => simp [Memory.getRange, ih, Nat.add_assoc, Nat.add_comm 1]

@[simp] theorem Memory.getElem_getRange (m : Memory) (a n k : Nat)
    (h : k < (m.getRange a n).length) : (m.getRange a n)[k] = m.get (a + k) := by
  have hk : k < n := by simpa using h
  have := m.getElem?_getRange a n k
  rw [if_pos hk, List.getElem?_eq_getElem h] at this
  exact Option.some.inj this

/-! ### The canonical form -/

theorem Memory.wf_nil : Memory.wf [] := by simp [Memory.wf]

theorem Memory.wf_erase (m : Memory) (a : Nat) (h : m.wf) : (m.erase a).wf :=
  ⟨h.1.filter _, fun c hc => h.2 c (List.mem_filter.1 hc).1⟩

theorem Memory.mem_insert (m : Memory) (a : Nat) (v : Byte) (c : Host.Cell)
    (hc : c ∈ Memory.insert m a v) : c = (a, v) ∨ c ∈ m := by
  induction m with
  | nil => simpa [Memory.insert] using hc
  | cons d m ih =>
    rw [Memory.insert] at hc
    split at hc
    · simpa using hc
    · rcases List.mem_cons.1 hc with rfl | hc
      · simp
      · rcases ih hc with h | h <;> simp [h]

theorem Memory.wf_insert (m : Memory) (a : Nat) (v : Byte) (h : m.wf) (ha : a < config.memSize)
    (hv : v ≠ Memory.unlisted a) (hm : ∀ c ∈ m, c.1 ≠ a) : (Memory.insert m a v).wf := by
  refine ⟨?_, fun c hc => ?_⟩
  · have hp := h.1
    clear h
    induction m with
    | nil => simp [Memory.insert]
    | cons d m ih =>
      have hd := hm d (by simp)
      rw [List.pairwise_cons] at hp
      rw [Memory.insert]
      split
      · next hlt =>
        refine List.pairwise_cons.2 ⟨fun c hc => ?_, List.pairwise_cons.2 hp⟩
        rcases List.mem_cons.1 hc with rfl | hc
        · exact hlt
        · exact Nat.lt_trans hlt (hp.1 c hc)
      · refine List.pairwise_cons.2 ⟨fun c hc => ?_, ih (fun c hc => hm c (by simp [hc])) hp.2⟩
        rcases Memory.mem_insert m a v c hc with rfl | hc
        · simp only; omega
        · exact hp.1 c hc
  · rcases Memory.mem_insert m a v c hc with rfl | hc
    · exact ⟨ha, hv⟩
    · exact h.2 c hc

theorem Memory.wf_set (m : Memory) (a : Nat) (v : Byte) (h : m.wf) (ha : a < config.memSize) :
    (m.set a v).wf := by
  rw [Memory.set]
  split
  · exact m.wf_erase a h
  · next hv => exact (m.erase a).wf_insert a v (m.wf_erase a h) ha hv (m.not_mem_erase a)

theorem Memory.wf_setRange (m : Memory) (a : Nat) (vs : List Byte) (h : m.wf)
    (ha : a + vs.length ≤ config.memSize) : (m.setRange a vs).wf := by
  induction vs generalizing m a with
  | nil => exact h
  | cons v vs ih =>
    simp only [List.length_cons] at ha
    exact ih _ _ (m.wf_set a v h (by omega)) (by omega)

/-! ### The bounds-checked accesses -/

/-- A range of `n` cells at `base` is out of range exactly when it is not empty and passes the end
of memory. -/
theorem Memory.offending_eq (base n : Nat) :
    Memory.offending base n =
      if 0 < n ∧ 4096 < base + n then some (max base 4096) else none := by
  rw [Memory.offending, config_memSize]
  split <;> split <;> first | rfl | omega

/-- All that `loadRange` can answer. -/
theorem Memory.loadRange_cases (m : Memory) (base n : Nat) :
    (0 < n ∧ 4096 < base + n ∧ m.loadRange base n = .error (max base 4096)) ∨
    ((n = 0 ∨ base + n ≤ 4096) ∧ m.loadRange base n = .ok (m.getRange base n)) := by
  rw [Memory.loadRange, Memory.offending_eq]
  by_cases h : 0 < n ∧ 4096 < base + n
  · exact .inl ⟨h.1, h.2, by rw [if_pos h]⟩
  · exact .inr ⟨by omega, by rw [if_neg h]⟩

/-- All that `storeRange` can answer. -/
theorem Memory.storeRange_cases (m : Memory) (base : Nat) (vs : List Byte) :
    (0 < vs.length ∧ 4096 < base + vs.length ∧ m.storeRange base vs = .error (max base 4096)) ∨
    ((vs.length = 0 ∨ base + vs.length ≤ 4096) ∧
      m.storeRange base vs = .ok (m.setRange base vs)) := by
  rw [Memory.storeRange, Memory.offending_eq]
  by_cases h : 0 < vs.length ∧ 4096 < base + vs.length
  · exact .inl ⟨h.1, h.2, by rw [if_pos h]⟩
  · exact .inr ⟨by omega, by rw [if_neg h]⟩

theorem Memory.read_eq (m : Memory) (a : Nat) :
    m.read a = if 4096 ≤ a then .error a else .ok (m.get a) := rfl

/-- A store in range keeps the canonical form. -/
theorem Memory.wf_storeRange (m m' : Memory) (base : Nat) (vs : List Byte) (h : m.wf)
    (hs : m.storeRange base vs = .ok m') : m'.wf := by
  rcases m.storeRange_cases base vs with ⟨-, -, he⟩ | ⟨hb, he⟩ <;> rw [he] at hs
  · cases hs
  · obtain rfl : m.setRange base vs = m' := by simpa using hs
    rcases hb with hb | hb
    · rw [List.length_eq_zero_iff.1 hb]; exact h
    · exact m.wf_setRange base vs h hb

end Sys2Proof.Machine
end

