-- ==== Sys2Proof/Laws/State.lean ====
section
/-! SUPPORT. One lemma per field per update of State, so that no later proof unfolds an update. -/

namespace Sys2Proof.Machine

/-! ### State.setV -/

@[simp] theorem State.setV_mem (s : State) (r : Nibble) (b : Byte) : (s.setV r b).mem = s.mem := rfl
@[simp] theorem State.setV_i (s : State) (r : Nibble) (b : Byte) : (s.setV r b).i = s.i := rfl
@[simp] theorem State.setV_pc (s : State) (r : Nibble) (b : Byte) : (s.setV r b).pc = s.pc := rfl
@[simp] theorem State.setV_stack (s : State) (r : Nibble) (b : Byte) : (s.setV r b).stack = s.stack := rfl
@[simp] theorem State.setV_sp (s : State) (r : Nibble) (b : Byte) : (s.setV r b).sp = s.sp := rfl
@[simp] theorem State.setV_dt (s : State) (r : Nibble) (b : Byte) : (s.setV r b).dt = s.dt := rfl
@[simp] theorem State.setV_st (s : State) (r : Nibble) (b : Byte) : (s.setV r b).st = s.st := rfl
@[simp] theorem State.setV_key (s : State) (r : Nibble) (b : Byte) : (s.setV r b).key = s.key := rfl
@[simp] theorem State.setV_wait (s : State) (r : Nibble) (b : Byte) : (s.setV r b).wait = s.wait := rfl
@[simp] theorem State.setV_fault (s : State) (r : Nibble) (b : Byte) : (s.setV r b).fault = s.fault := rfl
@[simp] theorem State.setV_disp (s : State) (r : Nibble) (b : Byte) : (s.setV r b).disp = s.disp := rfl
@[simp] theorem State.setV_draws (s : State) (r : Nibble) (b : Byte) : (s.setV r b).draws = s.draws := rfl

/-! ### State.setFlagThenV -/

@[simp] theorem State.setFlagThenV_mem (s : State) (f : Byte) (x : Nibble) (b : Byte) : (s.setFlagThenV f x b).mem = s.mem := rfl
@[simp] theorem State.setFlagThenV_i (s : State) (f : Byte) (x : Nibble) (b : Byte) : (s.setFlagThenV f x b).i = s.i := rfl
@[simp] theorem State.setFlagThenV_pc (s : State) (f : Byte) (x : Nibble) (b : Byte) : (s.setFlagThenV f x b).pc = s.pc := rfl
@[simp] theorem State.setFlagThenV_stack (s : State) (f : Byte) (x : Nibble) (b : Byte) : (s.setFlagThenV f x b).stack = s.stack := rfl
@[simp] theorem State.setFlagThenV_sp (s : State) (f : Byte) (x : Nibble) (b : Byte) : (s.setFlagThenV f x b).sp = s.sp := rfl
@[simp] theorem State.setFlagThenV_dt (s : State) (f : Byte) (x : Nibble) (b : Byte) : (s.setFlagThenV f x b).dt = s.dt := rfl
@[simp] theorem State.setFlagThenV_st (s : State) (f : Byte) (x : Nibble) (b : Byte) : (s.setFlagThenV f x b).st = s.st := rfl
@[simp] theorem State.setFlagThenV_key (s : State) (f : Byte) (x : Nibble) (b : Byte) : (s.setFlagThenV f x b).key = s.key := rfl
@[simp] theorem State.setFlagThenV_wait (s : State) (f : Byte) (x : Nibble) (b : Byte) : (s.setFlagThenV f x b).wait = s.wait := rfl
@[simp] theorem State.setFlagThenV_fault (s : State) (f : Byte) (x : Nibble) (b : Byte) : (s.setFlagThenV f x b).fault = s.fault := rfl
@[simp] theorem State.setFlagThenV_disp (s : State) (f : Byte) (x : Nibble) (b : Byte) : (s.setFlagThenV f x b).disp = s.disp := rfl
@[simp] theorem State.setFlagThenV_draws (s : State) (f : Byte) (x : Nibble) (b : Byte) : (s.setFlagThenV f x b).draws = s.draws := rfl

/-! ### State.advance -/

@[simp] theorem State.advance_mem (s : State) : s.advance.mem = s.mem := rfl
@[simp] theorem State.advance_v (s : State) : s.advance.v = s.v := rfl
@[simp] theorem State.advance_i (s : State) : s.advance.i = s.i := rfl
@[simp] theorem State.advance_stack (s : State) : s.advance.stack = s.stack := rfl
@[simp] theorem State.advance_sp (s : State) : s.advance.sp = s.sp := rfl
@[simp] theorem State.advance_dt (s : State) : s.advance.dt = s.dt := rfl
@[simp] theorem State.advance_st (s : State) : s.advance.st = s.st := rfl
@[simp] theorem State.advance_key (s : State) : s.advance.key = s.key := rfl
@[simp] theorem State.advance_wait (s : State) : s.advance.wait = s.wait := rfl
@[simp] theorem State.advance_fault (s : State) : s.advance.fault = s.fault := rfl
@[simp] theorem State.advance_disp (s : State) : s.advance.disp = s.disp := rfl
@[simp] theorem State.advance_draws (s : State) : s.advance.draws = s.draws := rfl

/-! ### State.skipIf -/

@[simp] theorem State.skipIf_mem (s : State) (c : Bool) : (s.skipIf c).mem = s.mem := rfl
@[simp] theorem State.skipIf_v (s : State) (c : Bool) : (s.skipIf c).v = s.v := rfl
@[simp] theorem State.skipIf_i (s : State) (c : Bool) : (s.skipIf c).i = s.i := rfl
@[simp] theorem State.skipIf_stack (s : State) (c : Bool) : (s.skipIf c).stack = s.stack := rfl
@[simp] theorem State.skipIf_sp (s : State) (c : Bool) : (s.skipIf c).sp = s.sp := rfl
@[simp] theorem State.skipIf_dt (s : State) (c : Bool) : (s.skipIf c).dt = s.dt := rfl
@[simp] theorem State.skipIf_st (s : State) (c : Bool) : (s.skipIf c).st = s.st := rfl
@[simp] theorem State.skipIf_key (s : State) (c : Bool) : (s.skipIf c).key = s.key := rfl
@[simp] theorem State.skipIf_wait (s : State) (c : Bool) : (s.skipIf c).wait = s.wait := rfl
@[simp] theorem State.skipIf_fault (s : State) (c : Bool) : (s.skipIf c).fault = s.fault := rfl
@[simp] theorem State.skipIf_disp (s : State) (c : Bool) : (s.skipIf c).disp = s.disp := rfl
@[simp] theorem State.skipIf_draws (s : State) (c : Bool) : (s.skipIf c).draws = s.draws := rfl

/-! ### State.jumpTo -/

@[simp] theorem State.jumpTo_mem (s : State) (p : Word) : (s.jumpTo p).mem = s.mem := rfl
@[simp] theorem State.jumpTo_v (s : State) (p : Word) : (s.jumpTo p).v = s.v := rfl
@[simp] theorem State.jumpTo_i (s : State) (p : Word) : (s.jumpTo p).i = s.i := rfl
@[simp] theorem State.jumpTo_stack (s : State) (p : Word) : (s.jumpTo p).stack = s.stack := rfl
@[simp] theorem State.jumpTo_sp (s : State) (p : Word) : (s.jumpTo p).sp = s.sp := rfl
@[simp] theorem State.jumpTo_dt (s : State) (p : Word) : (s.jumpTo p).dt = s.dt := rfl
@[simp] theorem State.jumpTo_st (s : State) (p : Word) : (s.jumpTo p).st = s.st := rfl
@[simp] theorem State.jumpTo_key (s : State) (p : Word) : (s.jumpTo p).key = s.key := rfl
@[simp] theorem State.jumpTo_wait (s : State) (p : Word) : (s.jumpTo p).wait = s.wait := rfl
@[simp] theorem State.jumpTo_fault (s : State) (p : Word) : (s.jumpTo p).fault = s.fault := rfl
@[simp] theorem State.jumpTo_disp (s : State) (p : Word) : (s.jumpTo p).disp = s.disp := rfl
@[simp] theorem State.jumpTo_draws (s : State) (p : Word) : (s.jumpTo p).draws = s.draws := rfl

/-! ### State.nextRnd: the host moves on, the block stays -/

@[simp] theorem State.nextRnd_toBlock (s : State) : s.nextRnd.toBlock = s.toBlock := rfl
@[simp] theorem State.nextRnd_mem (s : State) : s.nextRnd.mem = s.mem := rfl
@[simp] theorem State.nextRnd_v (s : State) : s.nextRnd.v = s.v := rfl
@[simp] theorem State.nextRnd_i (s : State) : s.nextRnd.i = s.i := rfl
@[simp] theorem State.nextRnd_pc (s : State) : s.nextRnd.pc = s.pc := rfl
@[simp] theorem State.nextRnd_stack (s : State) : s.nextRnd.stack = s.stack := rfl
@[simp] theorem State.nextRnd_sp (s : State) : s.nextRnd.sp = s.sp := rfl
@[simp] theorem State.nextRnd_dt (s : State) : s.nextRnd.dt = s.dt := rfl
@[simp] theorem State.nextRnd_st (s : State) : s.nextRnd.st = s.st := rfl
@[simp] theorem State.nextRnd_key (s : State) : s.nextRnd.key = s.key := rfl
@[simp] theorem State.nextRnd_wait (s : State) : s.nextRnd.wait = s.wait := rfl
@[simp] theorem State.nextRnd_fault (s : State) : s.nextRnd.fault = s.fault := rfl
@[simp] theorem State.nextRnd_disp (s : State) : s.nextRnd.disp = s.disp := rfl
@[simp] theorem State.nextRnd_draws (s : State) : s.nextRnd.draws = s.draws + 1 := rfl
@[simp] theorem State.nextRnd_getV (s : State) (r : Nibble) : s.nextRnd.getV r = s.getV r := rfl

/-! ### State.latch -/

@[simp] theorem State.latch_mem (s : State) (r : FaultRecord) : (s.latch r).mem = s.mem := rfl
@[simp] theorem State.latch_v (s : State) (r : FaultRecord) : (s.latch r).v = s.v := rfl
@[simp] theorem State.latch_i (s : State) (r : FaultRecord) : (s.latch r).i = s.i := rfl
@[simp] theorem State.latch_pc (s : State) (r : FaultRecord) : (s.latch r).pc = s.pc := rfl
@[simp] theorem State.latch_stack (s : State) (r : FaultRecord) : (s.latch r).stack = s.stack := rfl
@[simp] theorem State.latch_sp (s : State) (r : FaultRecord) : (s.latch r).sp = s.sp := rfl
@[simp] theorem State.latch_dt (s : State) (r : FaultRecord) : (s.latch r).dt = s.dt := rfl
@[simp] theorem State.latch_st (s : State) (r : FaultRecord) : (s.latch r).st = s.st := rfl
@[simp] theorem State.latch_key (s : State) (r : FaultRecord) : (s.latch r).key = s.key := rfl
@[simp] theorem State.latch_wait (s : State) (r : FaultRecord) : (s.latch r).wait = s.wait := rfl
@[simp] theorem State.latch_disp (s : State) (r : FaultRecord) : (s.latch r).disp = s.disp := rfl
@[simp] theorem State.latch_draws (s : State) (r : FaultRecord) : (s.latch r).draws = s.draws := rfl

/-! ### The fields that an update writes -/

@[simp] theorem State.advance_pc (s : State) : s.advance.pc = s.pc + 2 := rfl
@[simp] theorem State.skipIf_pc (s : State) (c : Bool) :
    (s.skipIf c).pc = if c then s.pc + 4 else s.pc + 2 := rfl
@[simp] theorem State.jumpTo_pc (s : State) (p : Word) : (s.jumpTo p).pc = p := rfl
@[simp] theorem State.latch_fault (s : State) (r : FaultRecord) : (s.latch r).fault = some r := rfl

/-! ### Register reads after an update -/

@[simp] theorem State.getV_setV (s : State) (r q : Nibble) (b : Byte) :
    (s.setV r b).getV q = if q = r then b else s.getV q := by
  have hrq : r.toNat = q.toNat ↔ q = r := by rw [BitVec.toNat_inj, eq_comm]
  simp [State.getV, State.setV, Vector.getElem_set, hrq]

@[simp] theorem State.getV_setFlagThenV (s : State) (f : Byte) (x q : Nibble) (b : Byte) :
    (s.setFlagThenV f x b).getV q = if q = x then b else if q = vf then f else s.getV q := by
  simp [State.setFlagThenV]

@[simp] theorem State.getV_advance (s : State) (q : Nibble) : s.advance.getV q = s.getV q := rfl
@[simp] theorem State.getV_skipIf (s : State) (c : Bool) (q : Nibble) :
    (s.skipIf c).getV q = s.getV q := rfl
@[simp] theorem State.getV_jumpTo (s : State) (p : Word) (q : Nibble) :
    (s.jumpTo p).getV q = s.getV q := rfl
@[simp] theorem State.getV_latch (s : State) (r : FaultRecord) (q : Nibble) :
    (s.latch r).getV q = s.getV q := rfl

@[simp] theorem State.getV_with_mem (s : State) (a : Memory) (q : Nibble) :
    ({ s with mem := a } : State).getV q = s.getV q := rfl
@[simp] theorem State.getV_with_i (s : State) (a : Word) (q : Nibble) :
    ({ s with i := a } : State).getV q = s.getV q := rfl
@[simp] theorem State.getV_with_pc (s : State) (a : Word) (q : Nibble) :
    ({ s with pc := a } : State).getV q = s.getV q := rfl
@[simp] theorem State.getV_with_dt (s : State) (a : Byte) (q : Nibble) :
    ({ s with dt := a } : State).getV q = s.getV q := rfl
@[simp] theorem State.getV_with_st (s : State) (a : Byte) (q : Nibble) :
    ({ s with st := a } : State).getV q = s.getV q := rfl
@[simp] theorem State.getV_with_key (s : State) (a : Option Nibble) (q : Nibble) :
    ({ s with key := a } : State).getV q = s.getV q := rfl
@[simp] theorem State.getV_with_wait (s : State) (a : Bool) (q : Nibble) :
    ({ s with wait := a } : State).getV q = s.getV q := rfl
@[simp] theorem State.getV_with_fault (s : State) (a : Option FaultRecord) (q : Nibble) :
    ({ s with fault := a } : State).getV q = s.getV q := rfl
@[simp] theorem State.getV_with_disp (s : State) (a : Pixels) (q : Nibble) :
    ({ s with disp := a } : State).getV q = s.getV q := rfl
@[simp] theorem State.getV_with_draws (s : State) (a : Nat) (q : Nibble) :
    ({ s with draws := a } : State).getV q = s.getV q := rfl

/-! ### State.setVs: loading several registers -/

theorem State.setVs_frame (s : State) (k : Nat) (bs : List Byte) :
    s.setVs k bs = { s with v := (s.setVs k bs).v } := by
  induction bs generalizing s k with
  | nil => rfl
  | cons b bs ih => rw [State.setVs, ih]; rfl

/-- After loading `bs` from register `k` on, register `q` holds its byte of the list if it is among
the loaded ones and its old value otherwise. -/
theorem State.getV_setVs (s : State) (k : Nat) (bs : List Byte) (q : Nibble)
    (h : k + bs.length ≤ 16) :
    (s.setVs k bs).getV q =
      if k ≤ q.toNat then (bs[q.toNat - k]?).getD (s.getV q) else s.getV q := by
  induction bs generalizing s k with
  | nil => simp [State.setVs]
  | cons b bs ih =>
    simp only [List.length_cons] at h
    rw [State.setVs, ih _ _ (by omega), State.getV_setV]
    have hk : q = BitVec.ofNat 4 k ↔ q.toNat = k := by
      rw [← BitVec.toNat_inj, BitVec.toNat_ofNat, Nat.mod_eq_of_lt (by omega)]
    by_cases h1 : q.toNat = k
    · simp [hk, h1]
    · by_cases h2 : k ≤ q.toNat
      · have h3 : q.toNat - k = (q.toNat - (k + 1)) + 1 := by omega
        simp [hk, h1, h2, h3, show k + 1 ≤ q.toNat by omega]
      · simp [hk, h1, h2, show ¬ k + 1 ≤ q.toNat by omega]

@[simp] theorem State.setVs_mem (s : State) (k : Nat) (bs : List Byte) : (s.setVs k bs).mem = s.mem := by
  rw [State.setVs_frame]
@[simp] theorem State.setVs_i (s : State) (k : Nat) (bs : List Byte) : (s.setVs k bs).i = s.i := by
  rw [State.setVs_frame]
@[simp] theorem State.setVs_pc (s : State) (k : Nat) (bs : List Byte) : (s.setVs k bs).pc = s.pc := by
  rw [State.setVs_frame]
@[simp] theorem State.setVs_stack (s : State) (k : Nat) (bs : List Byte) : (s.setVs k bs).stack = s.stack := by
  rw [State.setVs_frame]
@[simp] theorem State.setVs_sp (s : State) (k : Nat) (bs : List Byte) : (s.setVs k bs).sp = s.sp := by
  rw [State.setVs_frame]
@[simp] theorem State.setVs_dt (s : State) (k : Nat) (bs : List Byte) : (s.setVs k bs).dt = s.dt := by
  rw [State.setVs_frame]
@[simp] theorem State.setVs_st (s : State) (k : Nat) (bs : List Byte) : (s.setVs k bs).st = s.st := by
  rw [State.setVs_frame]
@[simp] theorem State.setVs_key (s : State) (k : Nat) (bs : List Byte) : (s.setVs k bs).key = s.key := by
  rw [State.setVs_frame]
@[simp] theorem State.setVs_wait (s : State) (k : Nat) (bs : List Byte) : (s.setVs k bs).wait = s.wait := by
  rw [State.setVs_frame]
@[simp] theorem State.setVs_fault (s : State) (k : Nat) (bs : List Byte) : (s.setVs k bs).fault = s.fault := by
  rw [State.setVs_frame]
@[simp] theorem State.setVs_disp (s : State) (k : Nat) (bs : List Byte) : (s.setVs k bs).disp = s.disp := by
  rw [State.setVs_frame]
@[simp] theorem State.setVs_draws (s : State) (k : Nat) (bs : List Byte) : (s.setVs k bs).draws = s.draws := by
  rw [State.setVs_frame]

end Sys2Proof.Machine
end

