-- ==== Sys2Proof/Laws/Ops.lean ====
section
/-! SUPPORT. One spec lemma per shared operation: all that a push, a pop, a fetch and a fault entry
can answer, and the frame vocabulary. -/

namespace Sys2Proof.Machine

/-! ### Frames -/

theorem ChangesOnly.refl (written : Elem → Prop) (s : State) : ChangesOnly written s s := by
  intro e _
  cases e <;> rfl

/-- A frame may name more elements than change. -/
theorem ChangesOnly.weaken {p q : Elem → Prop} {s t : State} (h : ChangesOnly p s t)
    (hpq : ∀ e, p e → q e) : ChangesOnly q s t := fun e he => h e fun hp => he (hpq e hp)

theorem ChangesOnly.trans {p : Elem → Prop} {s t u : State} (h : ChangesOnly p s t)
    (h' : ChangesOnly p t u) : ChangesOnly p s u := by
  intro e he
  have h1 := h e he
  have h2 := h' e he
  cases e <;> exact h2.trans h1

/-! ### Fault entry -/

/-- `raise` latches the record and changes nothing else. -/
theorem raise_raised (s : State) (code : FaultCode) (word : Option Word) (addr : Option Nat) :
    ∃ t, raise s code word addr = .next t ∧ Raised code word addr s t := by
  refine ⟨_, rfl, rfl, fun e he => ?_⟩
  cases e <;> first | rfl | exact absurd rfl he

theorem raiseBy_raised (i : Instr) (code : FaultCode) (addr : Option Nat) (s : State) :
    ∃ t, raiseBy i code addr s = .next t ∧ Raised code (some (encode i)) addr s t :=
  raise_raised s code _ addr

theorem raiseBy_eq (i : Instr) (code : FaultCode) (addr : Option Nat) (s : State) :
    raiseBy i code addr s = .next (s.latch ⟨code, some (encode i), some s.pc, addr⟩) := rfl

theorem halted_iff (s : State) : s.halted = true ↔ s.fault ≠ none := by
  simp [State.halted, Option.isSome_iff_ne_none]

theorem not_halted (s : State) (h : s.fault = none) : s.halted = false := by
  simp [State.halted, h]

/-! ### The call stack -/

/-- All that a push can answer. -/
theorem State.pushPc_cases (s : State) :
    (s.sp.val = 16 ∧ s.pushPc = none) ∨
    ∃ h : s.sp.val < 16, s.pushPc =
      some { s with stack := s.stack.set s.sp.val s.pc h, sp := ⟨s.sp.val + 1, by omega⟩ } := by
  by_cases h : s.sp.val < 16
  · exact .inr ⟨h, by simp [State.pushPc, h]⟩
  · exact .inl ⟨by omega, by simp [State.pushPc, h]⟩

/-- All that a pop can answer. -/
theorem State.pop_cases (s : State) :
    (s.sp.val = 0 ∧ s.pop = none) ∨
    ∃ h : 0 < s.sp.val, s.pop =
      some (s.stack[s.sp.val - 1]'(by omega), { s with sp := ⟨s.sp.val - 1, by omega⟩ }) := by
  by_cases h : s.sp.val = 0
  · exact .inl ⟨h, by simp [State.pop, h]⟩
  · exact .inr ⟨by omega, by simp only [State.pop, dif_neg h]⟩

/-! ### Fetch -/

/-- All that the fetch can answer: the first of `PC`, `PC + 1` that is out of range, or the word. -/
theorem fetchWord_cases (s : State) :
    (4096 ≤ s.pc.toNat ∧ fetchWord s = .error s.pc.toNat) ∨
    (s.pc.toNat = 4095 ∧ fetchWord s = .error 4096) ∨
    (s.pc.toNat + 1 < 4096 ∧
      fetchWord s = .ok (wordOfBytes (s.mem.get s.pc.toNat) (s.mem.get (s.pc.toNat + 1)))) := by
  rcases Nat.lt_or_ge s.pc.toNat 4096 with h | h
  · rcases Nat.lt_or_ge (s.pc.toNat + 1) 4096 with h' | h'
    · refine .inr (.inr ⟨h', ?_⟩)
      simp [fetchWord, Memory.read_eq, Nat.not_le.2 h, Nat.not_le.2 h']
    · have hpc : s.pc.toNat = 4095 := by omega
      refine .inr (.inl ⟨hpc, ?_⟩)
      simp [fetchWord, Memory.read_eq, hpc]
  · exact .inl ⟨h, by simp [fetchWord, Memory.read_eq, h]⟩

/-- An instruction executes only at `PC ≤ 0xFFE` (40_step_cycle.md R125). -/
theorem pc_le_of_fetchWord {s : State} {w : Word} (h : fetchWord s = .ok w) :
    s.pc.toNat ≤ 0xFFE := by
  rcases fetchWord_cases s with ⟨-, he⟩ | ⟨-, he⟩ | ⟨hb, -⟩
  · rw [he] at h; cases h
  · rw [he] at h; cases h
  · omega

/-- A decoded instruction comes from a fetched word. -/
theorem fetchInstr_ok {s : State} {i : Instr} (h : fetchInstr s = .ok i) :
    ∃ w, fetchWord s = .ok w ∧ decodeWord w = .ok i := by
  unfold fetchInstr at h
  split at h
  · cases h
  · next w hw =>
    split at h
    · cases h
    · next j hj => exact ⟨w, hw, by rw [hj]; simpa using h⟩

/-- The record of a fault before the execute stage: a fetch out of range, or an illegal word. -/
theorem fetchInstr_error {s : State} {r : FaultRecord} (h : fetchInstr s = .error r) :
    (∃ a, fetchWord s = .error a ∧ r = ⟨.memoryOutOfBounds, none, some s.pc, some a⟩) ∨
    (∃ w e, fetchWord s = .ok w ∧ decodeWord w = .error e ∧
      r = ⟨.unsupportedOpcode, some w, some s.pc, none⟩) := by
  unfold fetchInstr at h
  split at h
  · next a ha => exact .inl ⟨a, ha, by simpa [eq_comm] using h⟩
  · next w hw =>
    split at h
    · next e he => exact .inr ⟨w, e, hw, he, by simpa [eq_comm] using h⟩
    · cases h

/-- All that a step can do. -/
theorem step_cases (s : State) :
    (s.fault ≠ none ∧ step s = .next s) ∨
    (s.fault = none ∧ ∃ r, fetchInstr s = .error r ∧ step s = .next (s.latch r)) ∨
    (s.fault = none ∧ ∃ i, fetchInstr s = .ok i ∧ step s = exec i s) := by
  by_cases h : s.fault = none
  · have hh : s.halted = false := not_halted s h
    cases hf : fetchInstr s with
    | error r => exact .inr (.inl ⟨h, r, rfl, by simp [step, hh, hf]⟩)
    | ok i => exact .inr (.inr ⟨h, i, rfl, by simp [step, hh, hf]⟩)
  · exact .inl ⟨h, by simp [step, (halted_iff s).2 h]⟩

/-- All that `step(rnd)` can do. -/
theorem stepWith_cases (p : OpenParams) (rnd : Byte) (s : State) :
    (s.fault ≠ none ∧ stepWith p rnd s = .next s) ∨
    (s.fault = none ∧ ∃ r, fetchInstr s = .error r ∧ stepWith p rnd s = .next (s.latch r)) ∨
    (s.fault = none ∧ ∃ i, fetchInstr s = .ok i ∧ stepWith p rnd s = execWith p rnd i s) := by
  by_cases h : s.fault = none
  · have hh : s.halted = false := not_halted s h
    cases hf : fetchInstr s with
    | error r => exact .inr (.inl ⟨h, r, rfl, by simp [stepWith, hh, hf]⟩)
    | ok i => exact .inr (.inr ⟨h, i, rfl, by simp [stepWith, hh, hf]⟩)
  · exact .inl ⟨h, by simp [stepWith, (halted_iff s).2 h]⟩

end Sys2Proof.Machine
end

