-- ==== Sys2Proof/Laws/Exec.lean ====
section
/-! SUPPORT. One inversion lemma per meaning with more than one outcome: all the next states it can
answer. Every other meaning is one equation by definition. -/

namespace Sys2Proof.Machine

/-- All that `RET` can answer (R140). -/
theorem execRet_cases (s : State) :
    (s.sp.val = 0 ∧ execRet s = raiseBy .ret .stackUnderflow none s) ∨
    ∃ h : 0 < s.sp.val, execRet s =
      .next ({ s with sp := ⟨s.sp.val - 1, by omega⟩ }.jumpTo
        (s.stack[s.sp.val - 1]'(by omega) + 2)) := by
  rcases s.pop_cases with ⟨h, hp⟩ | ⟨h, hp⟩
  · exact .inl ⟨h, by rw [execRet, hp]⟩
  · exact .inr ⟨h, by rw [execRet, hp]⟩

/-- All that `CALL` can answer (R143). -/
theorem execCall_cases (nnn : Addr) (s : State) :
    (s.sp.val = 16 ∧ execCall nnn s = raiseBy (.call nnn) .stackOverflow none s) ∨
    ∃ h : s.sp.val < 16, execCall nnn s =
      .next ({ s with stack := s.stack.set s.sp.val s.pc h, sp := ⟨s.sp.val + 1, by omega⟩ }.jumpTo
        (zextAddr nnn)) := by
  rcases s.pushPc_cases with ⟨h, hp⟩ | ⟨h, hp⟩
  · exact .inl ⟨h, by rw [execCall, hp]⟩
  · exact .inr ⟨h, by rw [execCall, hp]⟩

/-- All that a store at `I` can answer (R193, R194). -/
theorem storeAtI_cases (i : Instr) (bytes : List Byte) (s : State) :
    (0 < bytes.length ∧ 4096 < s.i.toNat + bytes.length ∧
      storeAtI i bytes s = raiseBy i .memoryOutOfBounds (some (max s.i.toNat 4096)) s) ∨
    ((bytes.length = 0 ∨ s.i.toNat + bytes.length ≤ 4096) ∧
      storeAtI i bytes s = .next { s with mem := s.mem.setRange s.i.toNat bytes }.advance) := by
  rcases s.mem.storeRange_cases s.i.toNat bytes with ⟨h1, h2, h⟩ | ⟨h1, h⟩
  · exact .inl ⟨h1, h2, by rw [storeAtI, h]⟩
  · exact .inr ⟨h1, by rw [storeAtI, h]⟩

/-- All that `LD Vx, [I]` can answer (R195). -/
theorem execLdRegs_cases (x : Nibble) (s : State) :
    (4096 < s.i.toNat + regCount x ∧ execLdRegs x s =
      raiseBy (.ldRegs x) .memoryOutOfBounds (some (max s.i.toNat 4096)) s) ∨
    (s.i.toNat + regCount x ≤ 4096 ∧ execLdRegs x s =
      .next (s.setVs 0 (s.mem.getRange s.i.toNat (regCount x))).advance) := by
  rcases s.mem.loadRange_cases s.i.toNat (regCount x) with ⟨-, h2, h⟩ | ⟨h1, h⟩
  · exact .inl ⟨h2, by rw [execLdRegs, h]⟩
  · exact .inr ⟨by simp [regCount] at h1 ⊢; omega, by rw [execLdRegs, h]⟩

/-- All that `DRW` can answer (R211). -/
theorem execDrw_cases (x y n : Nibble) (s : State) :
    (0 < n.toNat ∧ 4096 < s.i.toNat + n.toNat ∧ execDrw x y n s =
      raiseBy (.drw x y n) .memoryOutOfBounds (some (max s.i.toNat 4096)) s) ∨
    ((n.toNat = 0 ∨ s.i.toNat + n.toNat ≤ 4096) ∧ ∃ d : Drawing,
      d = drawRows (s.getV x).toNat (s.getV y).toNat 0 (s.mem.getRange s.i.toNat n.toNat)
        { disp := s.disp, collision := false } ∧
      execDrw x y n s =
        .next ({ s with disp := d.disp }.setV vf (flagByte d.collision)).advance) := by
  rcases s.mem.loadRange_cases s.i.toNat n.toNat with ⟨h1, h2, h⟩ | ⟨h1, h⟩
  · exact .inl ⟨h1, h2, by simp only [execDrw, h]⟩
  · exact .inr ⟨h1, _, rfl, by simp only [execDrw, h]⟩

/-- All that `LD Vx, K` can answer (R233). -/
theorem execLdVxK_cases (x : Nibble) (s : State) :
    (s.key = none ∧ execLdVxK x s = .next { s with wait := true }) ∨
    ∃ k, s.key = some k ∧
      execLdVxK x s = .next ({ s with wait := false }.setV x (k.setWidth 8)).advance := by
  cases h : s.key with
  | none => exact .inl ⟨rfl, by rw [execLdVxK, h]⟩
  | some k => exact .inr ⟨k, rfl, by rw [execLdVxK, h]⟩

/-- All that the execute stage can do with its arguments: only the shifts look at `SHIFT_SOURCE`
(43_load_and_alu.md R168, R170), and only CXNN at the random byte (40_step_cycle.md R128). -/
theorem execWith_cases (p : OpenParams) (rnd : Byte) (i : Instr) (s : State) :
    (∃ x y, i = .shr x y ∧ execWith p rnd i s = shiftRight p.shiftSource x y s) ∨
    (∃ x y, i = .shl x y ∧ execWith p rnd i s = shiftLeft p.shiftSource x y s) ∨
    (∃ x nn, i = .rnd x nn ∧ execWith p rnd i s = randomByte rnd x nn s) ∨
    execWith p rnd i s = exec i s := by
  cases i
  case shr x y => exact .inl ⟨x, y, rfl, rfl⟩
  case shl x y => exact .inr (.inl ⟨x, y, rfl, rfl⟩)
  case rnd x nn => exact .inr (.inr (.inl ⟨x, nn, rfl, rfl⟩))
  all_goals exact .inr (.inr (.inr rfl))

/-- `exec` is the execute stage at the default `SHIFT_SOURCE`, but for the random byte. -/
theorem execWith_eq_exec (p : OpenParams) (rnd : Byte) (i : Instr) (s : State)
    (hp : p.shiftSource = config.shiftSource) (h : ∀ x nn, i ≠ .rnd x nn) :
    execWith p rnd i s = exec i s := by
  rcases execWith_cases p rnd i s with ⟨x, y, rfl, e⟩ | ⟨x, y, rfl, e⟩ | ⟨x, nn, rfl, -⟩ | e
  · rw [e, hp]; rfl
  · rw [e, hp]; rfl
  · exact absurd rfl (h x nn)
  · exact e

/-- The random byte reaches no instruction but CXNN. -/
theorem execWith_rnd_irrelevant (p : OpenParams) (r r' : Byte) (i : Instr) (s : State)
    (h : ∀ x nn, i ≠ .rnd x nn) : execWith p r i s = execWith p r' i s := by
  cases i
  case rnd x nn => exact absurd rfl (h x nn)
  all_goals rfl

@[simp] theorem length_decimalDigits (b : Byte) : (decimalDigits b).length = 3 := rfl

@[simp] theorem length_regsUpTo (x : Nibble) (s : State) : (regsUpTo x s).length = x.toNat + 1 := by
  have := x.isLt
  simp [regsUpTo, regCount]
  omega

theorem getElem?_regsUpTo (x : Nibble) (s : State) (r : Nibble) (h : r.toNat ≤ x.toNat) :
    (regsUpTo x s)[r.toNat]? = some (s.getV r) := by
  have := r.isLt
  simp [regsUpTo, regCount, State.getV, List.getElem?_take]
  omega

/-- What FX65 loads: registers `0..X` hold the bytes from `base` on, the others their old values
(R195). -/
theorem getV_loadedRegs (s : State) (base : Nat) (x q : Nibble) :
    (s.setVs 0 (s.mem.getRange base (regCount x))).getV q =
      if q.toNat ≤ x.toNat then s.mem.get (base + q.toNat) else s.getV q := by
  have := x.isLt
  rw [State.getV_setVs _ _ _ _ (by simp [regCount]; omega), if_pos (Nat.zero_le _), Nat.sub_zero,
    Memory.getElem?_getRange, regCount]
  by_cases h : q.toNat ≤ x.toNat
  · rw [if_pos (by omega), if_pos h]; rfl
  · rw [if_neg (by omega), if_neg h]; rfl

end Sys2Proof.Machine
end

