-- ==== Sys2Proof/Laws/Display.lean ====
section
/-! SUPPORT. The display operations: what flipping one pixel does, when two displays are equal, and
what drawing a sprite does to each pixel. -/

namespace Sys2Proof.Machine

/-- Flipping a pixel changes that pixel and no other. -/
theorem lit_flipPixel (d : Pixels) (x px : Fin 64) (y py : Fin 32) :
    lit (flipPixel d x y) px py = (lit d px py ^^ decide (px = x ∧ py = y)) := by
  by_cases hy : y.val = py.val
  · have : y = py := Fin.ext hy
    subst this
    by_cases hx : px = x
    · subst hx; simp [lit, flipPixel]
    · have hx' : ¬ px.val = x.val := fun h => hx (Fin.ext h)
      simp [lit, flipPixel, hx, hx']
  · have : ¬ py = y := fun h => hy (by rw [h])
    simp [lit, flipPixel, Vector.getElem_set_ne _ _ hy, this]

/-- Displays with the same pixels are equal. -/
theorem pixels_ext (d e : Pixels) (h : ∀ x y, lit d x y = lit e x y) : d = e := by
  refine Vector.ext fun y hy => BitVec.eq_of_getLsbD_eq fun x hx => ?_
  exact h ⟨x, hx⟩ ⟨y, hy⟩

theorem spriteColumn_eq_iff (vx c : Nat) (px : Fin 64) :
    px = spriteColumn vx c ↔ px.val = (vx + c) % 64 := by
  rw [Fin.ext_iff]; rfl

theorem spriteRow_eq_iff (vy r : Nat) (py : Fin 32) :
    py = spriteRow vy r ↔ py.val = (vy + r) % 32 := by
  rw [Fin.ext_iff]; rfl

@[simp] theorem lit_clear (x : Fin 64) (y : Fin 32) :
    lit (Vector.replicate 32 0) x y = false := by
  simp [lit]

/-! ### Drawing a sprite -/

/-- The pixel is one that row `r` of a sprite, with byte `b`, flips at a column of `cs`. -/
def Under (vx vy r : Nat) (b : Byte) (cs : List Nat) (px : Fin 64) (py : Fin 32) : Prop :=
  py = spriteRow vy r ∧ ∃ c ∈ cs, b.getLsbD (7 - c) = true ∧ px = spriteColumn vx c

open Classical in
/-- What drawing the columns `cs` of one row does to each pixel, and when it collides. -/
theorem drawBits_spec (vx vy r : Nat) (b : Byte) (cs : List Nat) (hn : cs.Nodup) (h8 : ∀ c ∈ cs, c < 8) (d : Drawing) :
    (∀ px py, lit (cs.foldl (drawBit vx vy r b) d).disp px py = (lit d.disp px py ^^ decide (Under vx vy r b cs px py))) ∧
    ((cs.foldl (drawBit vx vy r b) d).collision = true ↔ d.collision = true ∨ ∃ px py, Under vx vy r b cs px py ∧ lit d.disp px py = true) := by
  induction cs generalizing d with
  | nil => simp [Under]
  | cons c cs ih =>
    rw [List.nodup_cons] at hn
    have ⟨i1, i2⟩ := ih hn.2 (fun c hc => h8 c (by simp [hc])) (drawBit vx vy r b d c)
    rw [List.foldl_cons]
    have hU : ∀ px py, Under vx vy r b (c :: cs) px py ↔ (py = spriteRow vy r ∧ b.getLsbD (7 - c) = true ∧ px = spriteColumn vx c) ∨ Under vx vy r b cs px py := by
      intro px py
      simp only [Under, List.mem_cons]
      constructor
      · rintro ⟨h1, c', (rfl | h2), h3⟩
        · exact .inl ⟨h1, h3⟩
        · exact .inr ⟨h1, c', h2, h3⟩
      · rintro (⟨h1, h3⟩ | ⟨h1, c', h2, h3⟩)
        · exact ⟨h1, c, .inl rfl, h3⟩
        · exact ⟨h1, c', .inr h2, h3⟩
    have hdis : ∀ px py, (py = spriteRow vy r ∧ b.getLsbD (7 - c) = true ∧ px = spriteColumn vx c) → ¬ Under vx vy r b cs px py := by
      rintro px py ⟨-, -, h1⟩ ⟨-, c', hc', -, h2⟩
      have : c ≠ c' := by rintro rfl; exact hn.1 hc'
      have := h8 c (by simp)
      have := h8 c' (by simp [hc'])
      rw [spriteColumn_eq_iff] at h1 h2
      omega
    by_cases hb : b.getLsbD (7 - c) = true
    · have hd : drawBit vx vy r b d c = ⟨flipPixel d.disp (spriteColumn vx c) (spriteRow vy r), d.collision || lit d.disp (spriteColumn vx c) (spriteRow vy r)⟩ := by
        simp [drawBit, hb]
      rw [hd] at i1 i2 ⊢
      constructor
      · intro px py
        rw [i1, lit_flipPixel, Bool.xor_assoc]
        congr 1
        by_cases h : px = spriteColumn vx c ∧ py = spriteRow vy r
        · have := hdis px py ⟨h.2, hb, h.1⟩
          simp [h, hU, hb]
          simpa [h.1, h.2] using this
        · have : ¬(py = spriteRow vy r ∧ b.getLsbD (7 - c) = true ∧ px = spriteColumn vx c) := fun hh => h ⟨hh.2.2, hh.1⟩
          simp only [hU, this, h, false_or, decide_false, Bool.false_xor]
      · rw [i2]
        simp only [lit_flipPixel, hU, Bool.or_eq_true]
        constructor
        · rintro ((h | h) | ⟨px, py, h1, h2⟩)
          · exact .inl h
          · exact .inr ⟨_, _, .inl ⟨rfl, hb, rfl⟩, h⟩
          · have : ¬ (px = spriteColumn vx c ∧ py = spriteRow vy r) := fun hh => hdis px py ⟨hh.2, hb, hh.1⟩ h1
            simp [this] at h2
            exact .inr ⟨_, _, .inr h1, h2⟩
        · rintro (h | ⟨px, py, (h1 | h1), h2⟩)
          · exact .inl (.inl h)
          · rw [h1.1, h1.2.2] at h2; exact .inl (.inr h2)
          · have : ¬ (px = spriteColumn vx c ∧ py = spriteRow vy r) := fun hh => hdis px py ⟨hh.2, hb, hh.1⟩ h1
            exact .inr ⟨px, py, h1, by simp [this, h2]⟩
    · have hd : drawBit vx vy r b d c = d := by simp [drawBit, hb]
      rw [hd] at i1 i2 ⊢
      have hU' : ∀ px py, Under vx vy r b (c :: cs) px py ↔ Under vx vy r b cs px py := by intro px py; rw [hU]; simp [hb]
      simp only [hU']
      exact ⟨i1, i2⟩

/-- The pixel is one that the sprite with bytes `bs` flips, its first row being row `r0`. -/
def Covers (vx vy r0 : Nat) (bs : List Byte) (px : Fin 64) (py : Fin 32) : Prop :=
  ∃ r b, bs[r]? = some b ∧ Under vx vy (r0 + r) b (List.range 8) px py

open Classical in
/-- What drawing a sprite does to each pixel, and when it collides. -/
theorem drawRows_spec (vx vy r0 : Nat) (bs : List Byte) (hl : r0 + bs.length ≤ 32) (d : Drawing) :
    (∀ px py, lit (drawRows vx vy r0 bs d).disp px py = (lit d.disp px py ^^ decide (Covers vx vy r0 bs px py))) ∧
    ((drawRows vx vy r0 bs d).collision = true ↔ d.collision = true ∨ ∃ px py, Covers vx vy r0 bs px py ∧ lit d.disp px py = true) := by
  induction bs generalizing d r0 with
  | nil => simp [Covers, drawRows]
  | cons b bs ih =>
    simp at hl
    have ⟨i1, i2⟩ := ih (r0 + 1) (by omega) (drawRow vx vy r0 b d)
    have ⟨j1, j2⟩ := drawBits_spec vx vy r0 b (List.range 8) List.nodup_range (by simp) d
    rw [drawRows]
    have hU : ∀ px py, Covers vx vy r0 (b :: bs) px py ↔ Under vx vy r0 b (List.range 8) px py ∨ Covers vx vy (r0 + 1) bs px py := by
      intro px py
      constructor
      · rintro ⟨r, b', h1, h2⟩
        cases r with
        | zero => simp at h1; subst h1; exact .inl h2
        | succ r => exact .inr ⟨r, b', by simpa using h1, by rwa [show r0 + 1 + r = r0 + (r + 1) by omega]⟩
      · rintro (h | ⟨r, b', h1, h2⟩)
        · exact ⟨0, b, rfl, h⟩
        · exact ⟨r + 1, b', by simpa using h1, by rwa [show r0 + (r + 1) = r0 + 1 + r by omega]⟩
    have hdis : ∀ px py, Under vx vy r0 b (List.range 8) px py → ¬ Covers vx vy (r0 + 1) bs px py := by
      rintro px py ⟨h1, -⟩ ⟨r, b', h2, h3, -⟩
      have := (List.getElem?_eq_some_iff.1 h2).1
      rw [spriteRow_eq_iff] at h1 h3
      omega
    have e : (List.range 8).foldl (drawBit vx vy r0 b) d = drawRow vx vy r0 b d := rfl
    rw [e] at j1 j2
    constructor
    · intro px py
      rw [i1, j1, Bool.xor_assoc]
      congr 1
      by_cases h : Under vx vy r0 b (List.range 8) px py
      · have := hdis px py h
        simp [hU, h, this]
      · simp [hU, h]
    · rw [i2, j2]
      simp only [hU]
      constructor
      · rintro ((h | ⟨px, py, h1, h2⟩) | ⟨px, py, h1, h2⟩)
        · exact .inl h
        · exact .inr ⟨px, py, .inl h1, h2⟩
        · rw [j1] at h2
          have : ¬ Under vx vy r0 b (List.range 8) px py := fun hh => hdis px py hh h1
          simp [this] at h2
          exact .inr ⟨px, py, .inr h1, h2⟩
      · rintro (h | ⟨px, py, (h1 | h1), h2⟩)
        · exact .inl (.inl h)
        · exact .inl (.inr ⟨px, py, h1, h2⟩)
        · have : ¬ Under vx vy r0 b (List.range 8) px py := fun hh => hdis px py hh h1
          exact .inr ⟨px, py, h1, by rw [j1]; simp [this, h2]⟩

/-- The pixels flipped are those that `SpriteCovers` names. -/
theorem covers_iff (s : State) (x y n : Nibble) (px py) :
    Covers (s.getV x).toNat (s.getV y).toNat 0 (s.mem.getRange s.i.toNat n.toNat) px py ↔ SpriteCovers s x y n px py := by
  constructor
  · rintro ⟨r, b, h1, h2, c, hc, h3, h4⟩
    rw [Memory.getElem?_getRange] at h1
    split at h1
    · next hr =>
      simp at h1; subst h1
      rw [spriteRow_eq_iff] at h2; rw [spriteColumn_eq_iff] at h4
      exact ⟨r, c, hr, by simpa using hc, h3, h4, by simpa using h2⟩
    · cases h1
  · rintro ⟨r, c, hr, hc, h3, h4, h2⟩
    refine ⟨r, _, by rw [Memory.getElem?_getRange, if_pos hr], ?_, c, by simpa using hc, h3, ?_⟩
    · rw [spriteRow_eq_iff]; simpa using h2
    · rw [spriteColumn_eq_iff]; exact h4

end Sys2Proof.Machine
end

