-- ==== Sys2Proof/Laws/Frames.lean ====
section
/-! SUPPORT. The frames of the common updates, what the operand forms are as numbers, and what any
instruction can do to memory and to the stack. -/

namespace Sys2Proof.Machine

/-! ### Operands as numbers -/

@[simp] theorem zextAddr_toNat (nnn : Addr) : (zextAddr nnn).toNat = nnn.toNat := by
  have := nnn.isLt
  simp [zextAddr]; omega

@[simp] theorem zextByte_toNat (b : Byte) : (zextByte b).toNat = b.toNat := by
  have := b.isLt
  simp [zextByte]; omega

@[simp] theorem flagByte_toNat (b : Bool) : (flagByte b).toNat = if b then 1 else 0 := by
  cases b <;> rfl

/-! ### Frames of the common updates -/

theorem changesOnly_pc (s : State) (p : Word) :
    ChangesOnly (fun e => e = .pc) s { s with pc := p } := by
  intro e he
  cases e <;> first | rfl | exact absurd rfl he

theorem changesOnly_latch (s : State) (r : FaultRecord) :
    ChangesOnly (fun e => e = .fault) s (s.latch r) := by
  intro e he
  cases e <;> first | rfl | exact absurd rfl he

theorem changesOnly_setV_advance (s : State) (x : Nibble) (b : Byte) :
    ChangesOnly (fun e => e = .pc ∨ e = .v x) s (s.setV x b).advance := by
  intro e he
  cases e <;> first | rfl | (simp at he; done) | skip
  rename_i r
  have : r ≠ x := by rintro rfl; exact he (by simp)
  simp [Elem.Same, this]

theorem changesOnly_setFlagThenV_advance (s : State) (x : Nibble) (f b : Byte) :
    ChangesOnly (fun e => e = .pc ∨ e = .v x ∨ e = .v 15) s (s.setFlagThenV f x b).advance := by
  intro e he
  cases e <;> first | rfl | (simp at he; done) | skip
  rename_i r
  have : r ≠ x := by rintro rfl; exact he (by simp)
  have h15 : ¬ r = 15#4 := by rintro rfl; exact he (by simp)
  have h2 : ¬ r = x := this
  simp [Elem.Same, h2, h15]

theorem changesOnly_setRange_advance (s : State) (base : Nat) (vs : List Byte) (P : Elem → Prop) (hpc : P .pc)
   (h : ∀ k < vs.length, P (.cell (base + k))) :
    ChangesOnly P s { s with mem := s.mem.setRange base vs }.advance := by
  intro e he
  cases e <;> first | rfl | (exact (he hpc).elim) | skip
  rename_i a
  refine Memory.get_setRange_outside _ _ _ _ ?_
  by_contra hc
  have := h (a - base) (by omega)
  rw [show base + (a - base) = a by omega] at this
  exact he this

/-! ### Whole-machine inversions -/

/-- The fetch and decode stages look at memory and `PC` only. -/
theorem fetchInstr_congr {s t : State} (h1 : t.mem = s.mem) (h2 : t.pc = s.pc) : fetchInstr t = fetchInstr s := by
  unfold fetchInstr fetchWord; rw [h1, h2]

/-- All that an instruction can do to memory: nothing, or store a range at `I` inside memory. -/
theorem exec_mem (i : Instr) (s t : State) (h : exec i s = .next t) :
    t.mem = s.mem ∨ ∃ vs, s.i.toNat + vs.length ≤ 4096 ∧ t.mem = s.mem.setRange s.i.toNat vs ∧ ∃ x, i = .ldB x ∨ i = .stRegs x := by
  cases i
  case ret => rcases execRet_cases s with ⟨_, h'⟩ | ⟨_, h'⟩ <;> (cases (show execRet s = _ from h).symm.trans h'; exact .inl rfl)
  case call n => rcases execCall_cases n s with ⟨_, h'⟩ | ⟨_, h'⟩ <;> (cases (show execCall n s = _ from h).symm.trans h'; exact .inl rfl)
  case ldB x =>
    rcases storeAtI_cases (.ldB x) (decimalDigits (s.getV x)) s with ⟨-, -, h'⟩ | ⟨hl, h'⟩ <;> (cases (show storeAtI _ _ s = _ from h).symm.trans h')
    · exact .inl rfl
    · exact .inr ⟨_, by simpa using hl, rfl, x, .inl rfl⟩
  case stRegs x =>
    rcases storeAtI_cases (.stRegs x) (regsUpTo x s) s with ⟨-, -, h'⟩ | ⟨hl, h'⟩ <;> (cases (show storeAtI _ _ s = _ from h).symm.trans h')
    · exact .inl rfl
    · exact .inr ⟨_, by simpa using hl, rfl, x, .inr rfl⟩
  case ldRegs x => rcases execLdRegs_cases x s with ⟨-, h'⟩ | ⟨-, h'⟩ <;> (cases (show execLdRegs x s = _ from h).symm.trans h'; simp)
  case drw x y n => rcases execDrw_cases x y n s with ⟨-, -, h'⟩ | ⟨-, _, -, h'⟩ <;> (cases (show execDrw x y n s = _ from h).symm.trans h'; simp)
  case ldVxK x => rcases execLdVxK_cases x s with ⟨_, h'⟩ | ⟨_, _, h'⟩ <;> (cases (show execLdVxK x s = _ from h).symm.trans h'; exact .inl rfl)
  all_goals (cases h; exact .inl rfl)

/-- All that an instruction can do to the call stack. -/
theorem exec_stack (i : Instr) (s t : State) (h : exec i s = .next t) :
    (t.stack = s.stack ∧ t.sp = s.sp) ∨
    (i = .ret ∧ t.stack = s.stack ∧ 0 < s.sp.val ∧ t.sp.val = s.sp.val - 1) ∨
    (∃ nnn, i = .call nnn) ∧ ∃ h : s.sp.val < 16, t.stack = s.stack.set s.sp.val s.pc h ∧ t.sp.val = s.sp.val + 1 := by
  cases i
  case ret =>
    rcases execRet_cases s with ⟨_, h'⟩ | ⟨h0, h'⟩ <;> (cases (show execRet s = _ from h).symm.trans h')
    · exact .inl ⟨rfl, rfl⟩
    · exact .inr (.inl ⟨rfl, rfl, h0, rfl⟩)
  case call n =>
    rcases execCall_cases n s with ⟨_, h'⟩ | ⟨h0, h'⟩ <;> (cases (show execCall n s = _ from h).symm.trans h')
    · exact .inl ⟨rfl, rfl⟩
    · exact .inr (.inr ⟨⟨n, rfl⟩, h0, rfl, rfl⟩)
  case ldB x => rcases storeAtI_cases (.ldB x) (decimalDigits (s.getV x)) s with ⟨-, -, h'⟩ | ⟨hl, h'⟩ <;> (cases (show storeAtI _ _ s = _ from h).symm.trans h'; exact .inl ⟨rfl, rfl⟩)
  case stRegs x => rcases storeAtI_cases (.stRegs x) (regsUpTo x s) s with ⟨-, -, h'⟩ | ⟨hl, h'⟩ <;> (cases (show storeAtI _ _ s = _ from h).symm.trans h'; exact .inl ⟨rfl, rfl⟩)
  case ldRegs x => rcases execLdRegs_cases x s with ⟨-, h'⟩ | ⟨-, h'⟩ <;> (cases (show execLdRegs x s = _ from h).symm.trans h'; simp)
  case drw x y n => rcases execDrw_cases x y n s with ⟨-, -, h'⟩ | ⟨-, _, -, h'⟩ <;> (cases (show execDrw x y n s = _ from h).symm.trans h'; simp)
  case ldVxK x => rcases execLdVxK_cases x s with ⟨_, h'⟩ | ⟨_, _, h'⟩ <;> (cases (show execLdVxK x s = _ from h).symm.trans h'; exact .inl ⟨rfl, rfl⟩)
  all_goals (cases h; exact .inl ⟨rfl, rfl⟩)

end Sys2Proof.Machine
end

