-- ==== Sys2Proof/Laws/HostOps.lean ====
section
/-! SUPPORT. The host's operations: the state after a reset at any font, field by field, and all that
`reset(image)` can answer. -/

namespace Sys2Proof.Machine

/-! ### The state after `reset` of an empty image -/

@[simp] theorem emptyReset_v (p : OpenParams) (s : State) : (emptyReset p s).v = Block.reset.v := rfl
@[simp] theorem emptyReset_i (p : OpenParams) (s : State) : (emptyReset p s).i = Block.reset.i := rfl
@[simp] theorem emptyReset_pc (p : OpenParams) (s : State) : (emptyReset p s).pc = Block.reset.pc := rfl
@[simp] theorem emptyReset_stack (p : OpenParams) (s : State) : (emptyReset p s).stack = Block.reset.stack := rfl
@[simp] theorem emptyReset_sp (p : OpenParams) (s : State) : (emptyReset p s).sp = Block.reset.sp := rfl
@[simp] theorem emptyReset_dt (p : OpenParams) (s : State) : (emptyReset p s).dt = Block.reset.dt := rfl
@[simp] theorem emptyReset_st (p : OpenParams) (s : State) : (emptyReset p s).st = Block.reset.st := rfl
@[simp] theorem emptyReset_key (p : OpenParams) (s : State) : (emptyReset p s).key = Block.reset.key := rfl
@[simp] theorem emptyReset_wait (p : OpenParams) (s : State) : (emptyReset p s).wait = Block.reset.wait := rfl
@[simp] theorem emptyReset_fault (p : OpenParams) (s : State) : (emptyReset p s).fault = Block.reset.fault := rfl
@[simp] theorem emptyReset_disp (p : OpenParams) (s : State) : (emptyReset p s).disp = Block.reset.disp := rfl
@[simp] theorem emptyReset_draws (p : OpenParams) (s : State) : (emptyReset p s).draws = s.draws := rfl

/-- What an unlisted cell outside the font reads as. -/
theorem Memory.unlisted_outside_font {a : Nat} (h : a < 0x050 ∨ 0x0A0 ≤ a) :
    Memory.unlisted a = 0 := by
  rw [Memory.unlisted, config_fontBase]
  split
  · rw [Vector.getElem?_eq_none (by omega)]; rfl
  · rfl

/-- Memory after a reset of an empty image: the font, and zero everywhere else (R37). -/
theorem emptyReset_get (p : OpenParams) (s : State) (a : Nat) :
    (emptyReset p s).mem.get a =
      if 0x050 ≤ a ∧ a ≤ 0x09F then p.font[a - 0x050]?.getD 0 else 0 := by
  rw [emptyReset, Memory.get_setRange, config_fontBase]
  by_cases h : 0x050 ≤ a ∧ a ≤ 0x09F
  · rw [if_pos h, if_pos h.1, Vector.getElem?_toList, Vector.getElem?_eq_getElem (by omega)]; rfl
  · rw [if_neg h]
    split
    · rw [Vector.getElem?_toList, Vector.getElem?_eq_none (by omega)]
      exact Memory.unlisted_outside_font (by omega)
    · exact Memory.unlisted_outside_font (by omega)

theorem emptyReset_wf (p : OpenParams) (s : State) : (emptyReset p s).mem.wf :=
  Memory.wf_setRange _ _ _ (by decide) (by simp)

/-- Writing to empty memory what it reads as leaves it empty. -/
theorem Memory.setRange_nil (a : Nat) (vs : List Byte)
    (h : ∀ k b, vs[k]? = some b → b = Memory.unlisted (a + k)) : Memory.setRange [] a vs = [] := by
  induction vs generalizing a with
  | nil => rfl
  | cons v vs ih =>
    rw [Memory.setRange, Memory.set, if_pos (show v = Memory.unlisted a from h 0 v rfl)]
    refine ih (a + 1) fun k b hk => ?_
    rw [h (k + 1) b hk, Nat.add_right_comm, Nat.add_assoc]

/-- At the default font the block after `reset` of an empty image is that of `State.reset`, and the host
goes on where it was. -/
theorem emptyReset_default (s : State) :
    emptyReset config.toOpenParams s = { State.reset with draws := s.draws } := by
  have : Block.reset.mem.setRange config.fontBase config.font.toList = [] := by
    refine Memory.setRange_nil _ _ fun k b hk => ?_
    rw [Memory.unlisted, if_pos (Nat.le_add_right _ _), Nat.add_sub_cancel_left,
      ← Vector.getElem?_toList, hk]
    rfl
  rw [emptyReset, this]
  rfl

/-! ### Loading an image -/

/-- All that `reset(image)` can answer (R292, R293). -/
theorem resetWith_cases (p : OpenParams) (image : List Byte) (s : State) :
    (image.length ≤ 3584 ∧ resetWith p image s =
      { emptyReset p s with mem := (emptyReset p s).mem.setRange 0x200 image }) ∨
    (3584 < image.length ∧
      resetWith p image s = (emptyReset p s).latch ⟨.loadError, none, none, none⟩) := by
  by_cases h : 3584 < image.length
  · exact .inr ⟨h, by rw [resetWith, config_progMax, if_pos h]⟩
  · exact .inl ⟨by omega, by rw [resetWith, config_progMax, if_neg h, config_progBase]⟩

theorem resetWith_nil (p : OpenParams) (s : State) : resetWith p [] s = emptyReset p s := by
  rcases resetWith_cases p [] s with ⟨-, he⟩ | ⟨h, -⟩
  · rw [he]; rfl
  · exact absurd h (by simp)

end Sys2Proof.Machine
end

