-- ==== Sys2Proof/Laws/PerInstr.lean ====
section
/-! SUPPORT. Families of statements made once per instruction.

`PatternRow`: the word that `encode` builds lies in the instruction's own row of the table of spec
30_encoding.md R96, `w AND mask = match`. -/

namespace Sys2Proof.Laws.PatternRow

def Statement (i : Instr) : Prop := encode i &&& (patternRow i).mask = (patternRow i).value

theorem and_zero {n : Nat} (a : BitVec n) : a &&& 0 = 0 := BitVec.and_zero

theorem and_formatA (op : Nibble) (nnn : Addr) :
    formatA op nnn &&& formatA 0xF 0 = formatA op 0 := by
  refine (BitVec.and_append (x₁ := op) (y₁ := nnn)).trans ?_
  rw [show op &&& 0xF = op from BitVec.and_allOnes, and_zero]; rfl

theorem and_formatXK (op x : Nibble) (nn : Byte) :
    formatXK op x nn &&& formatXK 0xF 0 0xFF = formatXK op 0 nn := by
  refine (BitVec.and_append (x₁ := op ++ x) (y₁ := nn)).trans ?_
  rw [BitVec.and_append, show op &&& 0xF = op from BitVec.and_allOnes,
    show nn &&& 0xFF = nn from BitVec.and_allOnes, and_zero]; rfl

theorem and_formatXK_op (op x : Nibble) (nn : Byte) :
    formatXK op x nn &&& formatXK 0xF 0 0 = formatXK op 0 0 := by
  refine (BitVec.and_append (x₁ := op ++ x) (y₁ := nn)).trans ?_
  rw [BitVec.and_append, show op &&& 0xF = op from BitVec.and_allOnes, and_zero,
    and_zero]; rfl

theorem and_formatXYN (op x y n : Nibble) :
    formatXYN op x y n &&& formatXYN 0xF 0 0 0xF = formatXYN op 0 0 n := by
  refine (BitVec.and_append (x₁ := op ++ x ++ y) (y₁ := n)).trans ?_
  rw [BitVec.and_append, BitVec.and_append, show op &&& 0xF = op from BitVec.and_allOnes,
    show n &&& 0xF = n from BitVec.and_allOnes, and_zero, and_zero]; rfl

theorem and_formatXYN_op (op x y n : Nibble) :
    formatXYN op x y n &&& formatXYN 0xF 0 0 0 = formatXYN op 0 0 0 := by
  refine (BitVec.and_append (x₁ := op ++ x ++ y) (y₁ := n)).trans ?_
  rw [BitVec.and_append, BitVec.and_append, show op &&& 0xF = op from BitVec.and_allOnes,
    and_zero, and_zero, and_zero]; rfl

theorem cls : Statement .cls := rfl
theorem ret : Statement .ret := rfl
theorem sys (nnn : Addr) : Statement (.sys nnn) := and_formatA 0x0 nnn
theorem jp (nnn : Addr) : Statement (.jp nnn) := and_formatA 0x1 nnn
theorem call (nnn : Addr) : Statement (.call nnn) := and_formatA 0x2 nnn
theorem seImm (x : Nibble) (nn : Byte) : Statement (.seImm x nn) := and_formatXK_op 0x3 x nn
theorem sneImm (x : Nibble) (nn : Byte) : Statement (.sneImm x nn) := and_formatXK_op 0x4 x nn
theorem seReg (x y : Nibble) : Statement (.seReg x y) := and_formatXYN 0x5 x y 0x0
theorem ldImm (x : Nibble) (nn : Byte) : Statement (.ldImm x nn) := and_formatXK_op 0x6 x nn
theorem addImm (x : Nibble) (nn : Byte) : Statement (.addImm x nn) := and_formatXK_op 0x7 x nn
theorem ldReg (x y : Nibble) : Statement (.ldReg x y) := and_formatXYN 0x8 x y 0x0
theorem orReg (x y : Nibble) : Statement (.orReg x y) := and_formatXYN 0x8 x y 0x1
theorem andReg (x y : Nibble) : Statement (.andReg x y) := and_formatXYN 0x8 x y 0x2
theorem xorReg (x y : Nibble) : Statement (.xorReg x y) := and_formatXYN 0x8 x y 0x3
theorem addReg (x y : Nibble) : Statement (.addReg x y) := and_formatXYN 0x8 x y 0x4
theorem sub (x y : Nibble) : Statement (.sub x y) := and_formatXYN 0x8 x y 0x5
theorem shr (x y : Nibble) : Statement (.shr x y) := and_formatXYN 0x8 x y 0x6
theorem subn (x y : Nibble) : Statement (.subn x y) := and_formatXYN 0x8 x y 0x7
theorem shl (x y : Nibble) : Statement (.shl x y) := and_formatXYN 0x8 x y 0xE
theorem sneReg (x y : Nibble) : Statement (.sneReg x y) := and_formatXYN 0x9 x y 0x0
theorem ldI (nnn : Addr) : Statement (.ldI nnn) := and_formatA 0xA nnn
theorem jpV0 (nnn : Addr) : Statement (.jpV0 nnn) := and_formatA 0xB nnn
theorem rnd (x : Nibble) (nn : Byte) : Statement (.rnd x nn) := and_formatXK_op 0xC x nn
theorem drw (x y n : Nibble) : Statement (.drw x y n) := and_formatXYN_op 0xD x y n
theorem skp (x : Nibble) : Statement (.skp x) := and_formatXK 0xE x 0x9E
theorem sknp (x : Nibble) : Statement (.sknp x) := and_formatXK 0xE x 0xA1
theorem ldVxDt (x : Nibble) : Statement (.ldVxDt x) := and_formatXK 0xF x 0x07
theorem ldVxK (x : Nibble) : Statement (.ldVxK x) := and_formatXK 0xF x 0x0A
theorem ldDtVx (x : Nibble) : Statement (.ldDtVx x) := and_formatXK 0xF x 0x15
theorem ldStVx (x : Nibble) : Statement (.ldStVx x) := and_formatXK 0xF x 0x18
theorem addI (x : Nibble) : Statement (.addI x) := and_formatXK 0xF x 0x1E
theorem ldF (x : Nibble) : Statement (.ldF x) := and_formatXK 0xF x 0x29
theorem ldB (x : Nibble) : Statement (.ldB x) := and_formatXK 0xF x 0x33
theorem stRegs (x : Nibble) : Statement (.stRegs x) := and_formatXK 0xF x 0x55
theorem ldRegs (x : Nibble) : Statement (.ldRegs x) := and_formatXK 0xF x 0x65

/-- Every instruction's word lies in its row. -/
theorem every (i : Instr) : Statement i :=
  match i with
  | .cls => cls
  | .ret => ret
  | .sys nnn => sys nnn
  | .jp nnn => jp nnn
  | .call nnn => call nnn
  | .seImm x nn => seImm x nn
  | .sneImm x nn => sneImm x nn
  | .seReg x y => seReg x y
  | .ldImm x nn => ldImm x nn
  | .addImm x nn => addImm x nn
  | .ldReg x y => ldReg x y
  | .orReg x y => orReg x y
  | .andReg x y => andReg x y
  | .xorReg x y => xorReg x y
  | .addReg x y => addReg x y
  | .sub x y => sub x y
  | .shr x y => shr x y
  | .subn x y => subn x y
  | .shl x y => shl x y
  | .sneReg x y => sneReg x y
  | .ldI nnn => ldI nnn
  | .jpV0 nnn => jpV0 nnn
  | .rnd x nn => rnd x nn
  | .drw x y n => drw x y n
  | .skp x => skp x
  | .sknp x => sknp x
  | .ldVxDt x => ldVxDt x
  | .ldVxK x => ldVxK x
  | .ldDtVx x => ldDtVx x
  | .ldStVx x => ldStVx x
  | .addI x => addI x
  | .ldF x => ldF x
  | .ldB x => ldB x
  | .stRegs x => stRegs x
  | .ldRegs x => ldRegs x

end Sys2Proof.Laws.PatternRow
end

