-- ==== Sys2Proof/Tests/Slice0.lean ====
section
/-! SUPPORT. Tests of the model, one step each, and for every statement that has hypotheses a named
witness that meets them. Every expected value of a test is a vector of spec/95_test_vectors.md, named
in the test's docstring by its id (V, T, HO, RS), or an encoding of spec/30_encoding.md written out
bit by bit. -/

namespace Sys2Proof.Tests

open Sys2Proof.Machine

/-! ### Helpers -/

/-- A view of the next state. -/
def look {α : Type} (f : State → α) : Result → Option α
  | .next t => some (f t)
  | .fault _ => none
  | .refused _ => none

/-- Write several registers. -/
def regs (vs : List (Nibble × Byte)) (s : State) : State := vs.foldl (fun s p => s.setV p.1 p.2) s

/-- Write bytes to memory from an address. -/
def bytes (a : Nat) (vs : List Byte) (s : State) : State := { s with mem := s.mem.setRange a vs }

/-- The test vectors' step: the word is placed at `PC`. -/
def run (w : Word) (s : State) : Result := step (s.placeWord w)

/-- The display row by row, as numbers: bit `x` of a row is pixel `x`. -/
def rows (d : Pixels) : List Nat := d.toList.map BitVec.toNat

/-- Light pixels. -/
def light (ps : List (Fin 64 × Fin 32)) (s : State) : State :=
  { s with disp := ps.foldl (fun d p => flipPixel d p.1 p.2) s.disp }

/-- The state after reset. -/
abbrev r0 : State := State.reset

/-- The default open parameters, and those of the vectors with `SHIFT_SOURCE` = VX. -/
abbrev p0 : OpenParams := config.toOpenParams
abbrev pVx : OpenParams := { p0 with shiftSource := .vx }

/-- A halted state (HO5). -/
def halted : State := r0.latch ⟨.unsupportedOpcode, some 0, some 0x200, none⟩

/-- What a view shows, some next state has. -/
theorem exists_next {α : Type} {f : State → α} {r : Result} {a : α} (h : look f r = some a) :
    ∃ t, r = .next t ∧ f t = a := by
  cases r with
  | next t => exact ⟨t, rfl, by simpa [look] using h⟩
  | fault e => cases e
  | refused e => cases h

/-- The next state, if there is one. -/
def nextOf : Result → State
  | .next t => t
  | .fault _ => State.reset
  | .refused _ => State.reset

theorem eq_next {r : Result} (h : look (fun _ => true) r = some true) : r = .next (nextOf r) := by
  cases r with
  | next t => rfl
  | fault e => cases e
  | refused e => cases h

/-! ### Well-formedness -/

/-- R96 row 3: 0x00E0 is no `SYS` word. -/
theorem test_wf_refuses_sys_0E0 : ¬ (Instr.sys 0x0E0).WellFormed := by decide
/-- R96 row 3: 0x00EE is no `SYS` word. -/
theorem test_wf_refuses_sys_0EE : ¬ (Instr.sys 0x0EE).WellFormed := by decide
/-- R98: 0x01E0 and 0x0EEE are `SYS` words. -/
theorem test_wf_accepts_sys : (Instr.sys 0x1E0).WellFormed ∧ (Instr.sys 0xEEE).WellFormed := by decide
/-- R99. -/
theorem test_wf_accepts_drw : (Instr.drw 15 15 0).WellFormed := by decide

/-! ### Decoding: each row of R96, its word written out bit by bit -/

theorem test_decode_cls : decodeWord 0b0000_0000_1110_0000 = .ok .cls := by decide
theorem test_decode_ret : decodeWord 0b0000_0000_1110_1110 = .ok .ret := by decide
theorem test_decode_sys : decodeWord 0b0000_0001_0010_0011 = .ok (.sys 0x123) := by decide
theorem test_decode_jp : decodeWord 0b0001_1010_1011_1100 = .ok (.jp 0xABC) := by decide
theorem test_decode_call : decodeWord 0b0010_0011_0000_0101 = .ok (.call 0x305) := by decide
theorem test_decode_seImm : decodeWord 0b0011_0011_0010_1010 = .ok (.seImm 3 0x2A) := by decide
theorem test_decode_sneImm : decodeWord 0b0100_0011_0010_1010 = .ok (.sneImm 3 0x2A) := by decide
theorem test_decode_seReg : decodeWord 0b0101_0001_0010_0000 = .ok (.seReg 1 2) := by decide
theorem test_decode_ldImm : decodeWord 0b0110_1010_0111_1111 = .ok (.ldImm 10 0x7F) := by decide
theorem test_decode_addImm : decodeWord 0b0111_0010_0010_0001 = .ok (.addImm 2 0x21) := by decide
theorem test_decode_ldReg : decodeWord 0b1000_0001_0100_0000 = .ok (.ldReg 1 4) := by decide
theorem test_decode_orReg : decodeWord 0b1000_0001_0010_0001 = .ok (.orReg 1 2) := by decide
theorem test_decode_andReg : decodeWord 0b1000_0001_0010_0010 = .ok (.andReg 1 2) := by decide
theorem test_decode_xorReg : decodeWord 0b1000_0001_0010_0011 = .ok (.xorReg 1 2) := by decide
theorem test_decode_addReg : decodeWord 0b1000_1010_1011_0100 = .ok (.addReg 0xA 0xB) := by decide
theorem test_decode_sub : decodeWord 0b1000_0001_0010_0101 = .ok (.sub 1 2) := by decide
theorem test_decode_shr : decodeWord 0b1000_0001_0010_0110 = .ok (.shr 1 2) := by decide
theorem test_decode_subn : decodeWord 0b1000_0001_0010_0111 = .ok (.subn 1 2) := by decide
theorem test_decode_shl : decodeWord 0b1000_0001_0010_1110 = .ok (.shl 1 2) := by decide
theorem test_decode_sneReg : decodeWord 0b1001_0001_0010_0000 = .ok (.sneReg 1 2) := by decide
theorem test_decode_ldI : decodeWord 0b1010_0010_1111_0000 = .ok (.ldI 0x2F0) := by decide
theorem test_decode_jpV0 : decodeWord 0b1011_0011_0000_0001 = .ok (.jpV0 0x301) := by decide
theorem test_decode_rnd : decodeWord 0b1100_0011_0000_1111 = .ok (.rnd 3 0x0F) := by decide
theorem test_decode_drw : decodeWord 0b1101_0111_1010_0011 = .ok (.drw 7 0xA 3) := by decide
theorem test_decode_skp : decodeWord 0b1110_0100_1001_1110 = .ok (.skp 4) := by decide
theorem test_decode_sknp : decodeWord 0b1110_0100_1010_0001 = .ok (.sknp 4) := by decide
theorem test_decode_ldVxDt : decodeWord 0b1111_0101_0000_0111 = .ok (.ldVxDt 5) := by decide
theorem test_decode_ldVxK : decodeWord 0b1111_0011_0000_1010 = .ok (.ldVxK 3) := by decide
theorem test_decode_ldDtVx : decodeWord 0b1111_0101_0001_0101 = .ok (.ldDtVx 5) := by decide
theorem test_decode_ldStVx : decodeWord 0b1111_0110_0001_1000 = .ok (.ldStVx 6) := by decide
theorem test_decode_addI : decodeWord 0b1111_0010_0001_1110 = .ok (.addI 2) := by decide
theorem test_decode_ldF : decodeWord 0b1111_0000_0010_1001 = .ok (.ldF 0) := by decide
theorem test_decode_ldB : decodeWord 0b1111_0010_0011_0011 = .ok (.ldB 2) := by decide
theorem test_decode_stRegs : decodeWord 0b1111_0010_0101_0101 = .ok (.stRegs 2) := by decide
theorem test_decode_ldRegs : decodeWord 0b1111_0001_0110_0101 = .ok (.ldRegs 1) := by decide

/-- V98 to V100, V188 to V193, V37, V41: illegal words. -/
theorem test_decode_illegal : [0x5121, 0x8128, 0x812D, 0x812F, 0x912F, 0xE400, 0xE49F, 0xF000, 0xF075,
    0xF30B, 0xFF66].all (fun w => decodeWord w == .error (.illegal w)) = true := by decide
/-- R90: an instruction is two bytes, the high one first; the rest is given back. -/
theorem test_decode_bytes : decode [0xA2, 0xF0, 0x12] = .ok (.ldI 0x2F0, [0x12]) ∧
    decode [0xA2] = .error .truncated ∧ decode [] = .error .truncated := by decide

/-! ### Control transfer -/

/-- V3. -/
theorem test_V3_jp : look (·.pc) (run 0x1FFF r0) = some 0x0FFF := by decide
/-- V9. -/
theorem test_V9_call : look (fun t => (t.pc, t.sp, t.stack[15])) (run 0x2300 { r0 with pc := 0x204, sp := 15 }) =
    some (0x300, 16, 0x204) := by decide
/-- V10. -/
theorem test_V10_call_overflow : look (fun t => (t.fault, t.pc, t.sp)) (run 0x2300 { r0 with pc := 0x204, sp := 16 }) =
    some (some ⟨.stackOverflow, some 0x2300, some 0x204, none⟩, 0x204, 16) := by decide
/-- V12. -/
theorem test_V12_ret : look (fun t => (t.pc, t.sp)) (run 0x00EE
    { r0 with pc := 0x300, sp := 16, stack := r0.stack.set 15 0x0ABC }) = some (0x0ABE, 15) := by decide
/-- V13. -/
theorem test_V13_ret_underflow : look (fun t => (t.fault, t.pc, t.sp)) (run 0x00EE { r0 with pc := 0x300 }) =
    some (some ⟨.stackUnderflow, some 0x00EE, some 0x300, none⟩, 0x300, 0) := by decide
/-- V15. -/
theorem test_V15_jpV0_register_zero : look (·.pc) (run 0xB300 (regs [(0, 2), (3, 0x50)] r0)) = some 0x302 := by decide
/-- V16. -/
theorem test_V16_jpV0_no_wrap : look (·.pc) (run 0xBFFF (regs [(0, 0xFF)] r0)) = some 0x10FE := by decide
/-- V19. -/
theorem test_V19_sys : look (fun t => (t.fault, t.pc)) (run 0x0000 r0) =
    some (some ⟨.unsupportedOpcode, some 0, some 0x200, none⟩, 0x200) := by decide
/-- V21. -/
theorem test_V21_sys : look (·.fault) (run 0x01E0 r0) =
    some (some ⟨.unsupportedOpcode, some 0x01E0, some 0x200, none⟩) := by decide

/-! ### Fetch and the step -/

/-- V4. -/
theorem test_V4_fetch : look (·.fault) (step { r0 with pc := 0xFFF }) =
    some (some ⟨.memoryOutOfBounds, none, some 0xFFF, some 0x1000⟩) := by decide
/-- V17. -/
theorem test_V17_fetch : look (·.fault) (step { r0 with pc := 0x10FE }) =
    some (some ⟨.memoryOutOfBounds, none, some 0x10FE, some 0x10FE⟩) := by decide
/-- V6: an odd `PC`. -/
theorem test_V6_odd_pc : look (·.fault) (step (bytes 0x200 [0x12, 0x01, 0x6A, 0x77] { r0 with pc := 0x201 })) =
    some (some ⟨.unsupportedOpcode, some 0x016A, some 0x201, none⟩) := by decide
/-- V7: an odd `PC`. -/
theorem test_V7_odd_pc : look (fun t => (t.getV 10, t.pc)) (step (bytes 0x201 [0x6A, 0x77] { r0 with pc := 0x201 })) =
    some (0x77, 0x203) := by decide
/-- HO14. -/
theorem test_HO14_halted_step : look id (step halted) = some halted ∧ halted.status = .fault := by decide
/-- RS1: the first step after an empty load. -/
theorem test_RS1_first_step : look (·.fault) (step r0) =
    some (some ⟨.unsupportedOpcode, some 0, some 0x200, none⟩) := by decide

/-! ### Skips -/

/-- V30. -/
theorem test_V30_seImm : look (·.pc) (run 0x332A (regs [(3, 0x2A)] r0)) = some 0x204 := by decide
/-- V31. -/
theorem test_V31_seImm : look (·.pc) (run 0x332B (regs [(3, 0x2A)] r0)) = some 0x202 := by decide
/-- V32. -/
theorem test_V32_sneImm : look (·.pc) (run 0x432A (regs [(3, 0x2A)] r0)) = some 0x202 := by decide
/-- V43: a skip at the top of memory. -/
theorem test_V43_sneImm : look (·.pc) (run 0x4000 { r0 with pc := 0xFFE }) = some 0x1000 := by decide
/-- V34: on values, not on indices. -/
theorem test_V34_seReg : look (·.pc) (run 0x5120 (regs [(1, 7), (2, 7)] { r0 with pc := 0x210 })) = some 0x214 := by decide
/-- V35. -/
theorem test_V35_seReg : look (·.pc) (run 0x5120 (regs [(1, 7), (2, 8)] { r0 with pc := 0x210 })) = some 0x212 := by decide
/-- V38. -/
theorem test_V38_sneReg : look (·.pc) (run 0x9120 (regs [(1, 7), (2, 8)] { r0 with pc := 0x210 })) = some 0x214 := by decide
/-- V39. -/
theorem test_V39_sneReg : look (·.pc) (run 0x9120 (regs [(1, 7), (2, 7)] { r0 with pc := 0x210 })) = some 0x212 := by decide

/-! ### Register load and ALU: `V[1]`, `VF`, `PC` -/

/-- The view of these tests. -/
def alu (t : State) : Byte × Byte × Word := (t.getV 1, t.getV 15, t.pc)

/-- V50. -/
theorem test_V50_ldImm : look (fun t => (t.getV 10, t.pc)) (run 0x6A7F r0) = some (0x7F, 0x202) := by decide
/-- V51. -/
theorem test_V51_ldImm_vf : look (·.getV 15) (run 0x6F33 r0) = some 0x33 := by decide
/-- V52: wraps, no flag. -/
theorem test_V52_addImm : look (fun t => (t.getV 2, t.getV 15)) (run 0x7220 (regs [(2, 0xF0), (15, 0x5A)] r0)) =
    some (0x10, 0x5A) := by decide
/-- V55. -/
theorem test_V55_addImm_vf : look (·.getV 15) (run 0x7F01 (regs [(15, 0xFF)] r0)) = some 0 := by decide
/-- V56. -/
theorem test_V56_ldReg : look alu (run 0x8140 (regs [(4, 0x33)] r0)) = some (0x33, 0, 0x202) := by decide
/-- V58. -/
theorem test_V58_or : look alu (run 0x8121 (regs [(1, 0x0C), (2, 0x0A), (15, 0x5A)] r0)) = some (0x0E, 0x5A, 0x202) := by decide
/-- V62: values, not indices. -/
theorem test_V62_or : look alu (run 0x8121 (regs [(1, 0x12), (2, 0x21)] r0)) = some (0x33, 0, 0x202) := by decide
/-- V59. -/
theorem test_V59_and : look alu (run 0x8122 (regs [(1, 0x0C), (2, 0x0A), (15, 0x5A)] r0)) = some (0x08, 0x5A, 0x202) := by decide
/-- V60. -/
theorem test_V60_xor : look alu (run 0x8123 (regs [(1, 0x0C), (2, 0x0A), (15, 0x5A)] r0)) = some (0x06, 0x5A, 0x202) := by decide
/-- V65. -/
theorem test_V65_add : look alu (run 0x8124 (regs [(1, 0xFF), (2, 0xFF)] r0)) = some (0xFE, 1, 0x202) := by decide
/-- V69: `X` = 15. -/
theorem test_V69_add_vf : look (·.getV 15) (run 0x8F14 (regs [(15, 0xF0), (1, 0x20)] r0)) = some 0x10 := by decide
/-- V71. -/
theorem test_V71_sub : look alu (run 0x8125 (regs [(1, 5), (2, 10)] r0)) = some (0xFB, 0, 0x202) := by decide
/-- V77: `Y` = 15, the old `VF`. -/
theorem test_V77_sub_vf : look alu (run 0x81F5 (regs [(1, 5), (15, 5)] r0)) = some (0, 1, 0x202) := by decide
/-- V78. -/
theorem test_V78_shr : look alu (run 0x8126 (regs [(1, 0xAA), (2, 5)] r0)) = some (2, 1, 0x202) := by decide
/-- V79 and V84: `SHIFT_SOURCE` = VX. -/
theorem test_V79_shr_vx :
    look alu (stepWith pVx 0 ((regs [(1, 0xAA), (2, 5)] r0).placeWord 0x8126)) = some (0x55, 0, 0x202) ∧
    look (·.getV 15) (stepWith pVx 0 ((regs [(15, 7)] r0).placeWord 0x8F16)) = some 3 := by decide
/-- V85. -/
theorem test_V85_subn : look alu (run 0x8127 (regs [(1, 10), (2, 5)] r0)) = some (0xFB, 0, 0x202) := by decide
/-- V87: equal operands. -/
theorem test_V87_subn : look alu (run 0x8127 (regs [(1, 7), (2, 7)] r0)) = some (0, 1, 0x202) := by decide
/-- V89. -/
theorem test_V89_shl : look alu (run 0x812E (regs [(1, 1), (2, 0xC1)] r0)) = some (0x82, 1, 0x202) := by decide
/-- V90: `SHIFT_SOURCE` = VX. -/
theorem test_V90_shl_vx :
    look alu (stepWith pVx 0 ((regs [(1, 1), (2, 0xC1)] r0).placeWord 0x812E)) = some (2, 0, 0x202) := by decide
/-- V94. -/
theorem test_V94_rnd : look (fun t => (t.getV 3, t.pc)) (stepWith p0 0xB7 (r0.placeWord 0xC30F)) = some (0x07, 0x202) := by decide
/-- V95, on the model's own draw: whatever the free byte is, a mask of 0 gives 0. -/
theorem test_V95_rnd : look (·.getV 3) (execRnd 3 0 (regs [(3, 0x55)] r0)) = some 0 := by
  simp [look, execRnd, randomByte]

/-! ### Index register and memory -/

/-- V111. -/
theorem test_V111_ldI : look (fun t => (t.i, t.pc)) (run 0xAFFF { r0 with i := 0xFFFF }) = some (0x0FFF, 0x202) := by decide
/-- V113: wraps at 16 bits, not at 12; no flag. -/
theorem test_V113_addI : look (fun t => (t.i, t.getV 15)) (run 0xF21E (regs [(2, 1)] { r0 with i := 0x0FFF })) =
    some (0x1000, 0) := by decide
/-- V115. -/
theorem test_V115_addI : look (·.i) (run 0xF21E (regs [(2, 0xFF)] { r0 with i := 0xFF80 })) = some 0x007F := by decide
/-- V119. -/
theorem test_V119_ldF : look (·.i) (run 0xF429 (regs [(4, 0x0F)] r0)) = some 0x009B := by decide
/-- V121: not masked. -/
theorem test_V121_ldF : look (·.i) (run 0xF429 (regs [(4, 0xFF)] r0)) = some 0x054B := by decide
/-- V122. -/
theorem test_V122_ldB : look (fun t => (t.mem.getRange 0x300 3, t.i, t.pc)) (run 0xF233 (regs [(2, 0xFF)] { r0 with i := 0x300 })) =
    some ([2, 5, 5], 0x300, 0x202) := by decide
/-- V128: nothing is stored. -/
theorem test_V128_ldB : look (fun t => (t.fault, t.mem.getRange 0xFFE 2, t.pc)) (run 0xF233 (regs [(2, 0xC8)] { r0 with i := 0xFFE })) =
    some (some ⟨.memoryOutOfBounds, some 0xF233, some 0x200, some 0x1000⟩, [0, 0], 0x200) := by decide
/-- V132. -/
theorem test_V132_stRegs : look (fun t => (t.mem.getRange 0x300 4, t.i)) (run 0xF255
    (regs [(0, 0x11), (1, 0x22), (2, 0x33), (3, 0x44)] { r0 with i := 0x300 })) = some ([0x11, 0x22, 0x33, 0], 0x300) := by decide
/-- V135. -/
theorem test_V135_stRegs : look (·.fault) (run 0xF055 (regs [(0, 0xAB)] { r0 with i := 0x1234 })) =
    some (some ⟨.memoryOutOfBounds, some 0xF055, some 0x200, some 0x1234⟩) := by decide
/-- V136. -/
theorem test_V136_ldRegs : look (fun t => (t.getV 0, t.getV 1, t.getV 2, t.i, t.pc)) (run 0xF165
    (bytes 0x300 [0xDE, 0xAD, 0xBE] (regs [(2, 0x77)] { r0 with i := 0x300 }))) = some (0xDE, 0xAD, 0x77, 0x300, 0x202) := by decide
/-- V143: all sixteen registers, from the font. -/
theorem test_V143_ldRegs : look (fun t => t.v.toList) (run 0xFF65 { r0 with i := 0x50 }) =
    some [0xF0, 0x90, 0x90, 0x90, 0xF0, 0x20, 0x60, 0x20, 0x20, 0x70, 0xF0, 0x10, 0xF0, 0x80, 0xF0, 0xF0] := by decide

/-! ### Display -/

/-- V150. -/
theorem test_V150_cls : look (fun t => (rows t.disp, t.getV 15, t.pc)) (run 0x00E0
    (light [(0, 0), (63, 31), (10, 10)] (regs [(15, 1)] r0))) = some (List.replicate 32 0, 1, 0x202) := by decide
/-- V154: an overlap in one pixel. -/
theorem test_V154_drw : look (fun t => (rows t.disp, t.getV 15, t.pc)) (run 0xD011
    (light [(5, 0), (9, 0)] (regs [(0, 5), (1, 0)] { r0 with i := 0x69 }))) =
    some ([2 ^ 6 + 2 ^ 7 + 2 ^ 8 + 2 ^ 9] ++ List.replicate 31 0, 1, 0x202) := by decide
/-- V156 and V155: both coordinates wrap. -/
theorem test_V155_drw_wraps : look (fun t => (rows t.disp, t.getV 15)) (run 0xD011
    (regs [(0, 0x3E), (1, 0x1F)] { r0 with i := 0x69 })) =
    some (List.replicate 31 0 ++ [2 ^ 0 + 2 ^ 1 + 2 ^ 62 + 2 ^ 63], 0) := by decide

/-! ### Keys and timers -/

/-- V170. -/
theorem test_V170_skp : look (·.pc) (run 0xE49E (regs [(4, 0x0A)] { r0 with pc := 0x220, key := some 0xA })) = some 0x224 := by decide
/-- V172: not masked. -/
theorem test_V172_skp : look (·.pc) (run 0xE49E (regs [(4, 0x1A)] { r0 with pc := 0x220, key := some 0xA })) = some 0x222 := by decide
/-- V176. -/
theorem test_V176_sknp : look (·.pc) (run 0xE4A1 (regs [(4, 0x0A)] { r0 with pc := 0x220, key := some 0xA })) = some 0x222 := by decide
/-- V178: no key. -/
theorem test_V178_sknp : look (·.pc) (run 0xE4A1 { r0 with pc := 0x220 }) = some 0x224 := by decide
/-- V179. -/
theorem test_V179_ldVxDt : look (fun t => (t.getV 5, t.dt, t.pc)) (run 0xF507 { r0 with dt := 0x3C }) = some (0x3C, 0x3C, 0x202) := by decide
/-- V181: waits. -/
theorem test_V181_ldVxK : look (fun t => (t.wait, t.pc, t.status)) (run 0xF30A { r0 with pc := 0x230 }) = some (true, 0x230, .waiting) := by decide
/-- V182, from the state of V181 with a key: resumes, and the key stays latched. -/
theorem test_V182_ldVxK : look (fun t => (t.getV 3, t.wait, t.pc, t.key, t.status))
    (run 0xF30A { r0 with pc := 0x230, key := some 7, wait := true }) = some (7, false, 0x232, some 7, .ok) := by decide
/-- V184. -/
theorem test_V184_ldDtVx : look (fun t => (t.dt, t.pc)) (run 0xF515 (regs [(5, 0x3C)] r0)) = some (0x3C, 0x202) := by decide
/-- V187. -/
theorem test_V187_ldStVx : look (fun t => (t.st, t.pc)) (run 0xF618 (regs [(6, 0xFF)] { r0 with st := 1 })) = some (0xFF, 0x202) := by decide

/-! ### Host operations -/

/-- HO1. -/
theorem test_HO1_tick : (tickTimers { r0 with dt := 3, st := 1 }).dt = 2 ∧ (tickTimers { r0 with dt := 3, st := 1 }).st = 0 := by decide
/-- HO2: floored at zero. -/
theorem test_HO2_tick : (tickTimers { r0 with st := 5 }).dt = 0 ∧ (tickTimers { r0 with st := 5 }).st = 4 := by decide
/-- HO5. -/
theorem test_HO5_tick_halted : (tickTimers { halted with dt := 3 }).dt = 3 := by decide
/-- HO7 and HO8. -/
theorem test_HO7_set_key : (setKey (some 2) { r0 with key := some 7 }).key = some 2 ∧
    (setKey none { r0 with key := some 7 }).key = none := by decide
/-- HO10. -/
theorem test_HO10_set_key_halted : (setKey (some 7) halted).key = none := by decide
/-- HO12. -/
theorem test_HO12_read_display : (readDisplay (light [(5, 2)] r0))[133]? = some true ∧
    (readDisplay (light [(5, 2)] r0))[132]? = some false := by decide
/-- RS1. -/
theorem test_RS1_reset : resetWith p0 [] r0 = r0 ∧ r0.mem.get 0x050 = 0xF0 ∧ r0.mem.get 0x09F = 0x80 ∧
    r0.mem.get 0x04F = 0 ∧ r0.mem.get 0x0A0 = 0 ∧ r0.mem.get 0x200 = 0 :=
  ⟨by rw [resetWith_nil, emptyReset_default], by decide⟩
/-- R31 at another font: its bytes stand at `FONT_BASE`, and nothing of the default font is left. -/
theorem test_R31_other_font :
    (emptyReset { p0 with font := Vector.replicate 80 0x11 } r0).mem.get 0x09F = 0x11 ∧
    (emptyReset { p0 with font := Vector.replicate 80 0x11 } r0).mem.get 0x0A0 = 0 := by
  simp [emptyReset_get]
/-- RS2. -/
theorem test_RS2_reset : look (fun t => (t.i, t.pc)) (step (resetWith p0 [0xAA] r0)) = some (0xA00, 0x202) := by
  rw [resetWith, if_neg (by decide), emptyReset_default]; decide
/-- RS4. -/
theorem test_RS4_load_error (p : OpenParams) :
    (resetWith p (List.replicate 3585 0xAA) r0).fault = some ⟨.loadError, none, none, none⟩ := by
  rw [resetWith, if_pos (by rw [List.length_replicate]; decide)]; rfl

/-! ### The host's two questions -/

theorem test_decodeTableWord : decodeTableWord 16 0xD7A3 = some (.drw 7 0xA 3) ∧ decodeTableWord 16 0x812F = none := by decide
theorem test_withFetchWord : look (·.i) (step (r0.withFetchWord 16 0xA2F0)) = some 0x2F0 := by decide

/-! ### Witnesses: for each statement with hypotheses, a state and operands that meet them all -/

theorem witness_DecodeOfEncodeIsIdentity : (Instr.drw 7 0xA 3).WellFormed ∧ (Instr.sys 0x0EF).WellFormed := by decide

theorem witness_EncodeOfDecodeIsIdentity : decodeWord 0xF965 = .ok (.ldRegs 9) := by decide

/-- A word of each of the five sets, next to a legal one, and a legal word. -/
theorem witness_IllegalWordsAreTheFiveSets : IllegalWord 0x5121 ∧ IllegalWord 0x8128 ∧ IllegalWord 0x9121 ∧
    IllegalWord 0xE49F ∧ IllegalWord 0xF066 ∧ ¬ IllegalWord 0x5120 := by
  simp [IllegalWord]

theorem witness_DecoderAgreesWithPatternTable : patternRow (.sys 0x1E0) = patternRow (.sys 0) ∧
    (0x01E0 : Word) ≠ 0x00E0 ∧ (0x01E0 : Word) ≠ 0x00EE := by decide

/-- At the last address where an instruction fits. -/
theorem witness_StepRunsTheDecodedInstruction : ∃ s : State, s.fault = none ∧ s.pc.toNat + 1 < config.memSize ∧
    s.pc.toNat + 2 = config.memSize ∧
    decodeWord (wordOfBytes (s.mem.get s.pc.toNat) (s.mem.get (s.pc.toNat + 1))) = .ok (.ldI 0x2F0) :=
  ⟨{ r0 with pc := 0xFFE }.placeWord 0xA2F0, by decide⟩

theorem witness_StepLeavesAHaltedBlock : halted.fault = some ⟨.unsupportedOpcode, some 0, some 0x200, none⟩ := by decide

/-- The first address past memory, and the last cell. -/
theorem witness_FetchOutsideMemoryFaults : ∃ s s' : State, (s.fault = none ∧ config.memSize ≤ s.pc.toNat) ∧
    s'.fault = none ∧ s'.pc.toNat = config.memSize - 1 :=
  ⟨{ r0 with pc := 0x1000 }, { r0 with pc := 0x0FFF }, by decide⟩

/-- An illegal word, a `SYS` word, and a legal word, each fetched. -/
theorem witness_UnsupportedOpcodeExactly : r0.fault = none ∧
    (∃ s : State, s.fault = none ∧ fetchWord s = .ok 0xF066) ∧ fetchWord r0 = .ok 0 ∧
    IllegalWord 0xF066 ∧ SysWord 0 ∧
    ∃ t r, step { r0 with pc := 0x50 } = .next t ∧ t.fault = some r ∧ r.code = .unsupportedOpcode := by
  refine ⟨rfl, ⟨r0.placeWord 0xF066, by decide⟩, by decide, by simp [IllegalWord],
    by simp [SysWord], ?_⟩
  obtain ⟨t, ht, hf⟩ := exists_next (f := fun t => t.fault)
    (show look (·.fault) (step { r0 with pc := 0x50 }) = some (some ⟨.unsupportedOpcode, some 0xF090, some 0x50, none⟩) by decide)
  exact ⟨t, _, ht, hf, rfl⟩

theorem witness_FaultsArePrecise : r0.fault = none ∧ ∃ t, step r0 = .next t ∧
    t.fault = some ⟨.unsupportedOpcode, some 0, some 0x200, none⟩ := ⟨rfl, exists_next (by decide)⟩

/-- A fault after a fetched word, and one of the fetch. -/
theorem witness_FaultRecordNamesWordAndPc :
    ((∃ t, step r0 = .next t ∧ t.fault = some ⟨.unsupportedOpcode, some 0, some 0x200, none⟩) ∧ fetchWord r0 = .ok 0) ∧
    (∃ t, step { r0 with pc := 0xFFF } = .next t ∧ t.fault = some ⟨.memoryOutOfBounds, none, some 0xFFF, some 0x1000⟩) ∧
    fetchWord { r0 with pc := 0xFFF } = .error 0x1000 :=
  ⟨⟨exists_next (by decide), by decide⟩, exists_next (by decide), by decide⟩

/-- Each disjunct: `SYS`, a full stack, an empty one, and each range at its first address too many. -/
theorem witness_FaultsComeFromTheirInstructions :
    (∃ t, exec (.sys 0) r0 = .next t ∧ t.fault = some ⟨.unsupportedOpcode, some 0, some 0x200, none⟩) ∧
    (∃ t, exec (.call 0x300) { r0 with sp := 16 } = .next t ∧ t.fault = some ⟨.stackOverflow, some 0x2300, some 0x200, none⟩) ∧
    (∃ t, exec .ret r0 = .next t ∧ t.fault = some ⟨.stackUnderflow, some 0x00EE, some 0x200, none⟩) ∧
    (∃ t, exec (.ldB 0) { r0 with i := 0xFFE } = .next t ∧ t.fault = some ⟨.memoryOutOfBounds, some 0xF033, some 0x200, some 0x1000⟩) ∧
    (∃ t, exec (.stRegs 1) { r0 with i := 0xFFF } = .next t ∧ t.fault = some ⟨.memoryOutOfBounds, some 0xF155, some 0x200, some 0x1000⟩) ∧
    (∃ t, exec (.ldRegs 1) { r0 with i := 0xFFF } = .next t ∧ t.fault = some ⟨.memoryOutOfBounds, some 0xF165, some 0x200, some 0x1000⟩) ∧
    (∃ t, exec (.drw 0 0 1) { r0 with i := 0x1000 } = .next t ∧ t.fault = some ⟨.memoryOutOfBounds, some 0xD001, some 0x200, some 0x1000⟩) :=
  ⟨exists_next (by decide), exists_next (by decide), exists_next (by decide), exists_next (by decide),
    exists_next (by decide), exists_next (by decide), exists_next (by decide)⟩

/-- One row of the table each: jumps, call, return, the six skips, a wait, the rest. -/
theorem witness_PcFollowsTheTable : r0.fault = none ∧
    (∃ t, exec (.jp 0xFFF) r0 = .next t ∧ t.fault = none) ∧
    (∃ t, exec (.call 0x300) { r0 with sp := 15 } = .next t ∧ t.fault = none) ∧
    (∃ t, exec (.jpV0 0xFFF) (regs [(0, 0xFF)] r0) = .next t ∧ t.fault = none) ∧
    (∃ t, exec .ret { r0 with sp := 1 } = .next t ∧ t.fault = none) ∧
    (∃ t, exec (.seImm 0 0) { r0 with pc := 0xFFE } = .next t ∧ t.fault = none) ∧
    (∃ t, exec (.sneImm 0 1) r0 = .next t ∧ t.fault = none) ∧
    (∃ t, exec (.seReg 0 1) r0 = .next t ∧ t.fault = none) ∧
    (∃ t, exec (.sneReg 0 1) r0 = .next t ∧ t.fault = none) ∧
    (∃ t, exec (.skp 0) { r0 with key := some 0 } = .next t ∧ t.fault = none) ∧
    (∃ t, exec (.sknp 0) r0 = .next t ∧ t.fault = none) ∧
    (∃ t, exec (.ldVxK 3) r0 = .next t ∧ t.fault = none) ∧
    (∃ t, exec .cls r0 = .next t ∧ t.fault = none) :=
  ⟨rfl, exists_next (by decide), exists_next (by decide), exists_next (by decide), exists_next (by decide),
    exists_next (by decide), exists_next (by decide), exists_next (by decide), exists_next (by decide),
    exists_next (by decide), exists_next (by decide), exists_next (by decide), exists_next (by decide)⟩

/-- A waiting state: the block stands on `LD V3, K` with `WAIT` = 1. -/
def waitingState : State := { r0.placeWord 0xF30A with wait := true }

theorem waitingState_fetch : fetchInstr waitingState = .ok (.ldVxK 3) := by decide

theorem waitingState_waitInv : WaitInv waitingState := fun _ => ⟨rfl, 3, waitingState_fetch⟩

/-- Each status: waiting, completed by a key, and a fault. -/
theorem witness_StatusSaysWhatTheStepDid :
    (WaitInv waitingState ∧ ∃ t, step waitingState = .next t ∧ t.status = .waiting) ∧
    (WaitInv { waitingState with key := some 7 } ∧
      ∃ t, step { waitingState with key := some 7 } = .next t ∧ t.status = .ok) ∧
    (WaitInv r0 ∧ ∃ t, step r0 = .next t ∧ t.status = .fault) :=
  ⟨⟨waitingState_waitInv, exists_next (by decide)⟩,
    ⟨fun _ => ⟨rfl, 3, by decide⟩, exists_next (by decide)⟩,
    (fun h => by cases h), exists_next (by decide)⟩

/-- A state one call deep that meets the invariants. -/
def inSubroutine : State := { r0.placeWord 0x00EE with sp := 1, stack := r0.stack.set 0 0xFFE }

/-- At the largest live stack entry. -/
theorem witness_StepKeepsInvariant : RunInv inSubroutine ∧ ∃ t, step inSubroutine = .next t ∧ t.pc = 0x1000 :=
  ⟨by decide, exists_next (by decide)⟩

theorem witness_HostOperationsKeepInvariant : RunInv waitingState ∧
    (∃ t, (HostOp.reset [0x12, 0x00]).apply p0 waitingState = .next t ∧ t.wait = false) ∧
    (∃ t, (HostOp.step 0).apply p0 waitingState = .next t ∧ t.wait = true) ∧
    (∃ t, (HostOp.setKey (some 7)).apply p0 waitingState = .next t ∧ t.key = some 7) ∧
    (∃ t, HostOp.tickTimers.apply p0 waitingState = .next t ∧ t.dt = 0) :=
  ⟨by decide, exists_next (by decide), exists_next (by decide), exists_next (by decide), exists_next (by decide)⟩

/-- The invariant's premise is met before and after. -/
theorem witness_WaitingBlockStandsOnItsKeyWait : WaitInv waitingState ∧ waitingState.wait = true ∧
    ∃ t, (HostOp.step 0).apply p0 waitingState = .next t ∧ t.wait = true :=
  ⟨waitingState_waitInv, rfl, exists_next (by decide)⟩

/-- Each element changed by one of its writers. -/
theorem witness_EachElementHasItsWriters :
    (∃ t, exec (.ldDtVx 0) (regs [(0, 1)] r0) = .next t ∧ t.dt = 1) ∧
    (∃ t, exec (.ldStVx 0) (regs [(0, 1)] r0) = .next t ∧ t.st = 1) ∧
    (∃ t, exec (.stRegs 0) (regs [(0, 1)] { r0 with i := 0x300 }) = .next t ∧ t.mem.get 0x300 = 1) ∧
    (∃ t, exec (.drw 0 0 1) { r0 with i := 0x50 } = .next t ∧ lit t.disp 0 0 = true) ∧
    (∃ t, exec (.call 0x300) r0 = .next t ∧ t.sp = 1) ∧
    (∃ t, exec (.ldVxK 0) r0 = .next t ∧ t.wait = true) ∧
    (∃ t, exec (.ldI 0x300) r0 = .next t ∧ t.i = 0x300) ∧
    (∃ t, exec (.ldRegs 15) { r0 with i := 0x50 } = .next t ∧ t.getV 15 = 0xF0) ∧
    (∃ t, exec (.jp 0x300) r0 = .next t ∧ t.pc = 0x300) ∧
    (∃ t, exec .ret r0 = .next t ∧ t.fault = some ⟨.stackUnderflow, some 0x00EE, some 0x200, none⟩) ∧
    (∃ t, exec (.rnd 0 0) r0 = .next t ∧ t.draws = 1) :=
  ⟨exists_next (by decide), exists_next (by decide), exists_next (by decide), exists_next (by decide),
    exists_next (by decide), exists_next (by decide), exists_next (by decide), exists_next (by decide),
    exists_next (by decide), exists_next (by decide), exists_next (by decide)⟩

/-- A state at a jump to an even target. -/
def atJump : State := r0.placeWord 0x1200

theorem atJump_fetch : fetchInstr atJump = .ok (.jp 0x200) := by decide

theorem witness_EvenTargetsKeepPcEven : EvenPc atJump ∧ (∀ i, fetchInstr atJump = .ok i → EvenTarget i atJump) ∧
    ∃ t, step atJump = .next t ∧ t.pc = 0x200 := by
  refine ⟨by unfold EvenPc; decide, fun i hi => ?_, exists_next (by decide)⟩
  rw [atJump_fetch] at hi
  cases hi
  show (0x200 : Addr).toNat % 2 = 0
  decide

theorem witness_ParkedStateIsMappedToItself : Parked atJump := ⟨rfl, 0x200, atJump_fetch, by decide⟩

/-- Two states that differ in the dead entry at `SP`. -/
theorem witness_DeadStackEntriesAreNeverRead :
    SameButDeadStack inSubroutine { inSubroutine with stack := inSubroutine.stack.set 1 0x123 } ∧
    inSubroutine.stack[1] ≠ (inSubroutine.stack.set 1 0x123)[1] ∧
    ∃ t, step inSubroutine = .next t ∧ t.pc = 0x1000 :=
  ⟨⟨rfl, by decide⟩, by decide, exists_next (by decide)⟩

theorem witness_SoundAndWaitSteerNothing : (∃ t, step waitingState = .next t ∧ t.wait = true) ∧
    withSoundAndWait 9 false waitingState ≠ waitingState := ⟨exists_next (by decide), by decide⟩

theorem witness_OnlyRndUsesTheRandomByte : (∀ x nn, fetchInstr atJump ≠ .ok (.rnd x nn)) ∧
    p0.shiftSource = config.shiftSource ∧ ∃ t, step atJump = .next t ∧ t.pc = 0x200 := by
  refine ⟨fun x nn h => ?_, rfl, exists_next (by decide)⟩
  rw [atJump_fetch] at h
  cases h

/-- One stored byte in the last cell (FX55 with `X` = 0), three (FX33), and the last `PC` that fetches. -/
theorem witness_StoredBytesAreFetchedNext : ((0xFFE : Word).toNat + 1 < config.memSize ∧
      ¬ (0xFFF : Word).toNat + 1 < config.memSize) ∧
    (∃ t, exec (.stRegs 0) { r0 with i := 0xFFF } = .next t ∧ t.fault = none) ∧
    (∃ t, exec (.ldB 0) { r0 with i := 0xFFD } = .next t ∧ t.fault = none) :=
  ⟨by decide, exists_next (by decide), exists_next (by decide)⟩

/-- P5, steps 4 and 5: the word stored by FX55 is the word fetched. -/
theorem test_P5_store_becomes_code :
    look (fun t => fetchWord { t with pc := 0x208 } matches .ok 0x1208)
      (run 0xF155 (regs [(0, 0x12), (1, 8)] { r0 with i := 0x208 })) = some true := by decide

/-- The last free entry, and a full stack. -/
theorem witness_CallPushesTheCallSite : ({ r0 with sp := 15 } : State).sp.val < 16 ∧
    ({ r0 with sp := 16 } : State).sp.val = 16 := by decide

/-- One live entry, and none. -/
theorem witness_ReturnPopsTheCallSite : 0 < ({ r0 with sp := 1 } : State).sp.val ∧ r0.sp.val = 0 := by decide

/-- The deepest call that fits, returned from at another `PC`. -/
theorem witness_ReturnAfterCall : ∃ s t u : State, s.sp.val < 16 ∧ s.sp.val + 1 = 16 ∧
    exec (.call 0x300) s = .next t ∧ u.sp = t.sp ∧ u.stack[s.sp.val]? = some s.pc ∧ u.pc = 0x310 :=
  ⟨{ r0 with sp := 15 }, _, { r0 with sp := 16, stack := r0.stack.set 15 0x200, pc := 0x310 },
    by decide, by decide, rfl, rfl, by decide, rfl⟩

theorem witness_RegisterSkips : (1 : Nibble) ≠ 0 ∧ (15 : Nibble) ≠ 0 := by decide

/-- `X` is not 15, for the carry, no-borrow and shifted-out flags. -/
theorem witness_flag_clauses : (14 : Nibble) ≠ 15 ∧ ShiftSource.vy = config.shiftSource := by decide

/-- The last digit with a glyph. -/
theorem witness_FontAddress : ((regs [(4, 0x0F)] r0).getV 4).toNat < 16 := by decide

/-- The last range that fits, and the first that does not. -/
theorem witness_DecimalStore : ({ r0 with i := 0xFFD } : State).i.toNat + 2 < config.memSize ∧
    config.memSize ≤ ({ r0 with i := 0xFFE } : State).i.toNat + 2 := by decide

/-- The last range that fits, and the first that does not, with all sixteen registers; a register at
the end of the list. -/
theorem witness_RegisterStore : ({ r0 with i := 0xFF0 } : State).i.toNat + (15 : Nibble).toNat < config.memSize ∧
    config.memSize ≤ ({ r0 with i := 0xFF1 } : State).i.toNat + (15 : Nibble).toNat ∧
    (15 : Nibble).toNat ≤ (15 : Nibble).toNat := by decide

theorem witness_RegisterLoad : ({ r0 with i := 0xFFF } : State).i.toNat + (0 : Nibble).toNat < config.memSize ∧
    config.memSize ≤ ({ r0 with i := 0xFFF } : State).i.toNat + (1 : Nibble).toNat ∧
    (0 : Nibble).toNat ≤ (0 : Nibble).toNat := by decide

/-- The state after the store itself. -/
theorem witness_StoreThenLoadRestores : ∃ s t u : State, exec (.stRegs 2) s = .next t ∧ t.fault = none ∧ u.i = s.i ∧
    (∀ k ≤ (2 : Nibble).toNat, u.mem.get (s.i.toNat + k) = t.mem.get (s.i.toNat + k)) ∧ u.getV 0 ≠ s.getV 0 := by
  obtain ⟨t, ht, hf⟩ := exists_next (f := fun t => (t.fault, t.i, t.getV 0))
    (show look (fun t => (t.fault, t.i, t.getV 0)) (exec (.stRegs 2) (regs [(0, 1), (1, 2), (2, 3)] { r0 with i := 0xFFD })) =
      some (none, 0xFFD, 1) by decide)
  simp only [Prod.mk.injEq] at hf
  exact ⟨_, t, t.setV 0 9, ht, hf.1, hf.2.1, fun _ _ => rfl, by rw [State.getV_setV, if_pos rfl]; decide⟩

/-- `N` = 0, the last row in memory, the first outside it, a sprite over a lit pixel and one over none. -/
theorem witness_DrawFlipsExactlyTheSprite : (0 : Nibble).toNat = 0 ∧
    ({ r0 with i := 0xFF1 } : State).i.toNat + (15 : Nibble).toNat - 1 < config.memSize ∧
    (1 ≤ (15 : Nibble).toNat ∧ config.memSize ≤ ({ r0 with i := 0xFF2 } : State).i.toNat + (15 : Nibble).toNat - 1) ∧
    (SpriteCovers { r0 with i := 0x50 } 0 0 1 3 0 ∧ lit (light [(3, 0)] { r0 with i := 0x50 }).disp 3 0 = true) ∧
    ¬ ∃ px py, SpriteCovers { r0 with i := 0x50 } 0 0 1 px py ∧ lit r0.disp px py = true := by
  refine ⟨by decide, by decide, by decide, ⟨⟨0, 3, by decide⟩, by decide⟩, ?_⟩
  rintro ⟨px, py, -, h⟩
  rw [show r0.disp = Vector.replicate 32 0 from rfl, lit_clear] at h
  cases h

/-- Glyph 5 at (5, 0), before and after one draw. -/
def beforeDraw : State := regs [(0, 5)] { r0 with i := 0x69 }
def afterDraw : State := nextOf (exec (.drw 0 1 5) beforeDraw)

theorem witness_DrawTwiceRestoresTheDisplay : exec (.drw 0 1 5) beforeDraw = .next afterDraw ∧
    afterDraw.i = beforeDraw.i ∧ afterDraw.getV 0 = beforeDraw.getV 0 ∧ afterDraw.getV 1 = beforeDraw.getV 1 ∧
    (∀ a, afterDraw.mem.get a = beforeDraw.mem.get a) ∧
    ∃ w, exec (.drw 0 1 5) afterDraw = .next w ∧ w.getV 15 = 1 := by
  refine ⟨eq_next (by decide), by decide, by decide, by decide, fun a => ?_, exists_next (by decide)⟩
  rw [show afterDraw.mem = beforeDraw.mem by decide]

/-- The last key, matched and not matched. -/
theorem witness_KeySkips : (∃ k, some (15 : Nibble) = some k ∧ k.toNat = ((regs [(4, 15)] r0).getV 4).toNat) ∧
    ¬ ∃ k, some (15 : Nibble) = some k ∧ k.toNat = ((regs [(4, 0x1F)] r0).getV 4).toNat := by
  refine ⟨⟨15, rfl, by decide⟩, ?_⟩
  rintro ⟨k, hk, h⟩
  cases hk
  revert h
  decide

theorem witness_KeyWaitTakesTheLatchedKey : r0.key = none ∧ ({ r0 with key := some 0 } : State).key = some 0 := by decide

theorem witness_TickLowersBothTimers : r0.fault = none ∧ halted.fault ≠ none := by decide

theorem witness_SetKeyReplacesTheLatch : r0.fault = none ∧ halted.fault ≠ none := by decide

/-- The longest image that is accepted, and one byte more. -/
theorem witness_ResetLoadsTheImage : (List.replicate 3584 (0xAA : Byte)).length ≤ 3584 ∧
    3584 < (List.replicate 3585 (0xAA : Byte)).length := by
  simp only [List.length_replicate]; decide

theorem witness_EqualReadsAreEqualMemories : Memory.wf [(0x050, 1), (0xFFF, 0xAA)] ∧
    ∀ a, Memory.get [(0x050, 1), (0xFFF, 0xAA)] a = Memory.get (Memory.set [(0x050, 1)] 0xFFF 0xAA) a :=
  ⟨by decide, fun _ => rfl⟩

end Sys2Proof.Tests
end

/-! # Proofs about the state of the block (spec 10_state.md)

Three layers. `Effect` says once what an instruction can do to the state, whatever the open
parameters and the random byte; the facts about one step are read off it; the obligations follow.
Beside it stand the word that a decoded instruction came from, and the overlay of the elements that
no other instruction reads. -/

namespace Sys2Proof

/-! ### A word that decodes is the word of its instruction (30_encoding.md R95, R99) -/

theorem formatA_of_fieldOp {w : Word} {op : Nibble} (h : fieldOp w = op) :
    formatA op (fieldNNN w) = w := h ▸ formatA_fields w

theorem formatXK_of_fields {w : Word} {op : Nibble} {nn : Byte} (h : fieldOp w = op)
    (hn : fieldNN w = nn) : formatXK op (fieldX w) nn = w := h ▸ hn ▸ formatXK_fields w

theorem formatXYN_of_fields {w : Word} {op n : Nibble} (h : fieldOp w = op)
    (hn : fieldN w = n) : formatXYN op (fieldX w) (fieldY w) n = w := h ▸ hn ▸ formatXYN_fields w

theorem encode_decode0 {w : Word} (hop : fieldOp w = 0x0) : encode (decode0 w) = w := by
  unfold decode0
  split
  · next h => rw [h]; rfl
  · split
    · next h => rw [h]; rfl
    · exact formatA_of_fieldOp hop

/-- Each row of family 8 fixes `N`, which the split leaves as a hypothesis. -/
theorem encode_of_decode8 {w : Word} {i : Instr} (hop : fieldOp w = 0x8)
    (h : decode8 w = .ok i) : encode i = w := by
  unfold decode8 at h
  split at h <;> cases h <;>
    exact formatXYN_of_fields hop (BitVec.eq_of_toNat_eq (by assumption))

/-- Each row of family E fixes `NN`. -/
theorem encode_of_decodeE {w : Word} {i : Instr} (hop : fieldOp w = 0xE)
    (h : decodeE w = .ok i) : encode i = w := by
  unfold decodeE at h
  split at h <;> cases h <;>
    exact formatXK_of_fields hop (BitVec.eq_of_toNat_eq (by assumption))

/-- Each row of family F fixes `NN`. -/
theorem encode_of_decodeF {w : Word} {i : Instr} (hop : fieldOp w = 0xF)
    (h : decodeF w = .ok i) : encode i = w := by
  unfold decodeF at h
  split at h <;> cases h <;>
    exact formatXK_of_fields hop (BitVec.eq_of_toNat_eq (by assumption))

/-- No bit of a word is ignored by the decoder. -/
theorem encode_of_decodeWord {w : Word} {i : Instr} (h : decodeWord w = .ok i) : encode i = w := by
  have hop : ∀ op : Nibble, (fieldOp w).toNat = op.toNat → fieldOp w = op :=
    fun _ => BitVec.eq_of_toNat_eq
  unfold decodeWord at h
  split at h
  case h_1 e => cases h; exact encode_decode0 (hop 0x0 e)
  case h_9 e => exact encode_of_decode8 (hop 0x8 e) h
  case h_15 e => exact encode_of_decodeE (hop 0xE e) h
  case h_16 =>
    have hF : (fieldOp w).toNat = 15 := by
      have := (fieldOp w).isLt
      simp only [imp_false] at *
      omega
    exact encode_of_decodeF (hop 0xF hF) h
  case h_6 e | h_10 e =>
    split at h <;> cases h
    exact formatXYN_of_fields (hop _ e) (by assumption)
  case h_14 e => cases h; exact formatXYN_of_fields (hop 0xD e) rfl
  case h_2 e | h_3 e | h_11 e | h_12 e => cases h; exact formatA_of_fieldOp (hop _ e)
  all_goals cases h; exact formatXK_of_fields (hop _ (by assumption)) rfl

end Sys2Proof

namespace Sys2Proof.Machine

/-! ### What an instruction can do -/

/-- The instructions with a fault of their own: the execute stage's column of
60_exceptions.md R251. -/
def CanFault (i : Instr) : Prop :=
  i = .ret ∨ (∃ nnn, i = .sys nnn ∨ i = .call nnn) ∨
    (∃ x, i = .ldB x ∨ i = .stRegs x ∨ i = .ldRegs x) ∨ ∃ x y n, i = .drw x y n

/-- All that an instruction can do to the state, at every `SHIFT_SOURCE` and for every random byte:
one constructor per shape of update. That nothing else happens is `exec_effect` and
`execWith_effect`; when a skip is taken, and which byte a register gets, is not said here. -/
inductive Effect (s : State) : Instr → State → Prop
  | raised (i : Instr) (code : FaultCode) (addr : Option Nat) (hi : CanFault i)
      (haddr : addr ≠ none ↔ code = .memoryOutOfBounds) (hcode : code ≠ .loadError) :
      Effect s i (s.latch ⟨code, some (encode i), some s.pc, addr⟩)
  | clear : Effect s .cls { s with disp := Vector.replicate 32 0 }.advance
  | ret (h : 0 < s.sp.val) : Effect s .ret
      ({ s with sp := ⟨s.sp.val - 1, by omega⟩ }.jumpTo (s.stack[s.sp.val - 1]'(by omega) + 2))
  | jump (nnn : Addr) : Effect s (.jp nnn) (s.jumpTo (zextAddr nnn))
  | call (nnn : Addr) (h : s.sp.val < 16) : Effect s (.call nnn)
      ({ s with stack := s.stack.set s.sp.val s.pc h, sp := ⟨s.sp.val + 1, by omega⟩ }.jumpTo
        (zextAddr nnn))
  | jumpOffset (nnn : Addr) :
      Effect s (.jpV0 nnn) (s.jumpTo (zextAddr nnn + zextByte (s.getV 0)))
  | skip (i : Instr) (taken : Bool) : Effect s i (s.skipIf taken)
  | register (i : Instr) (x : Nibble) (b : Byte) (hx : writesV i x) :
      Effect s i (s.setV x b).advance
  | flagged (i : Instr) (f : Byte) (x : Nibble) (b : Byte) (hx : writesV i x)
      (hf : writesV i vf) : Effect s i (s.setFlagThenV f x b).advance
  | random (x : Nibble) (nn b : Byte) (n : Nat) :
      Effect s (.rnd x nn) ({ s with draws := n }.setV x b).advance
  | index (i : Instr) (a : Word) (hi : (∃ nnn, i = .ldI nnn) ∨ ∃ x, i = .addI x ∨ i = .ldF x) :
      Effect s i { s with i := a }.advance
  | store (i : Instr) (vs : List Byte) (hi : ∃ x, i = .ldB x ∨ i = .stRegs x)
      (h : s.i.toNat + vs.length ≤ 4096) :
      Effect s i { s with mem := s.mem.setRange s.i.toNat vs }.advance
  | load (x : Nibble) :
      Effect s (.ldRegs x) (s.setVs 0 (s.mem.getRange s.i.toNat (regCount x))).advance
  | draw (x y n : Nibble) (d : Pixels) (f : Byte) :
      Effect s (.drw x y n) ({ s with disp := d }.setV vf f).advance
  | delay (x : Nibble) : Effect s (.ldDtVx x) { s with dt := s.getV x }.advance
  | sound (x : Nibble) : Effect s (.ldStVx x) { s with st := s.getV x }.advance
  | wait (x : Nibble) : Effect s (.ldVxK x) { s with wait := true }
  | key (x : Nibble) (b : Byte) : Effect s (.ldVxK x) ({ s with wait := false }.setV x b).advance

theorem exists_effect_raiseBy {i : Instr} {s : State} {code : FaultCode} {addr : Option Nat}
    (hi : CanFault i) (haddr : addr ≠ none ↔ code = .memoryOutOfBounds)
    (hcode : code ≠ .loadError) : ∃ t, raiseBy i code addr s = .next t ∧ Effect s i t :=
  ⟨_, raiseBy_eq i code addr s, .raised i code addr hi haddr hcode⟩

theorem exists_effect_storeAtI {i : Instr} {bytes : List Byte} (s : State)
    (hi : ∃ x, i = .ldB x ∨ i = .stRegs x) (hl : 0 < bytes.length) :
    ∃ t, storeAtI i bytes s = .next t ∧ Effect s i t := by
  rcases storeAtI_cases i bytes s with ⟨-, -, e⟩ | ⟨hb, e⟩ <;> rw [e]
  · have hf : CanFault i := by
      rcases hi with ⟨x, rfl | rfl⟩ <;> simp [CanFault]
    exact exists_effect_raiseBy hf (by simp) (by simp)
  · exact ⟨_, rfl, .store i bytes hi (by omega)⟩

/-- The execute stage is defined on every state (40_step_cycle.md R129), and each next state is one
of the shapes of `Effect`. -/
theorem exec_effect (i : Instr) (s : State) : ∃ t, exec i s = .next t ∧ Effect s i t := by
  cases i
  case cls => exact ⟨_, rfl, .clear⟩
  case ret =>
    rcases execRet_cases s with ⟨-, e⟩ | ⟨h, e⟩ <;> rw [exec, e]
    · exact exists_effect_raiseBy (by simp [CanFault]) (by simp) (by simp)
    · exact ⟨_, rfl, .ret h⟩
  case sys nnn => exact exists_effect_raiseBy (by simp [CanFault]) (by simp) (by simp)
  case jp nnn => exact ⟨_, rfl, .jump nnn⟩
  case call nnn =>
    rcases execCall_cases nnn s with ⟨-, e⟩ | ⟨h, e⟩ <;> rw [exec, e]
    · exact exists_effect_raiseBy (by simp [CanFault]) (by simp) (by simp)
    · exact ⟨_, rfl, .call nnn h⟩
  case jpV0 nnn => exact ⟨_, rfl, .jumpOffset nnn⟩
  case seImm | sneImm | seReg | sneReg | skp | sknp => exact ⟨_, rfl, .skip _ _⟩
  case ldImm | addImm | ldReg | orReg | andReg | xorReg | ldVxDt =>
    exact ⟨_, rfl, .register _ _ _ rfl⟩
  case addReg | sub | shr | subn | shl =>
    exact ⟨_, rfl, .flagged _ _ _ _ (.inl rfl) (.inr rfl)⟩
  case rnd x nn => exact ⟨_, rfl, .random x nn _ _⟩
  case ldI nnn => exact ⟨_, rfl, .index _ _ (.inl ⟨nnn, rfl⟩)⟩
  case addI x => exact ⟨_, rfl, .index _ _ (.inr ⟨x, .inl rfl⟩)⟩
  case ldF x => exact ⟨_, rfl, .index _ _ (.inr ⟨x, .inr rfl⟩)⟩
  case ldB x => exact exists_effect_storeAtI s ⟨x, .inl rfl⟩ (by simp)
  case stRegs x => exact exists_effect_storeAtI s ⟨x, .inr rfl⟩ (by simp)
  case ldRegs x =>
    rcases execLdRegs_cases x s with ⟨-, e⟩ | ⟨-, e⟩ <;> rw [exec, e]
    · exact exists_effect_raiseBy (by simp [CanFault]) (by simp) (by simp)
    · exact ⟨_, rfl, .load x⟩
  case drw x y n =>
    rcases execDrw_cases x y n s with ⟨-, -, e⟩ | ⟨-, d, -, e⟩ <;> rw [exec, e]
    · exact exists_effect_raiseBy (by simp [CanFault]) (by simp) (by simp)
    · exact ⟨_, rfl, .draw x y n _ _⟩
  case ldVxK x =>
    rcases execLdVxK_cases x s with ⟨-, e⟩ | ⟨k, -, e⟩ <;> rw [exec, e]
    · exact ⟨_, rfl, .wait x⟩
    · exact ⟨_, rfl, .key x _⟩
  case ldDtVx x => exact ⟨_, rfl, .delay x⟩
  case ldStVx x => exact ⟨_, rfl, .sound x⟩

theorem effect_of_exec {i : Instr} {s t : State} (h : exec i s = .next t) : Effect s i t := by
  obtain ⟨u, hu, he⟩ := exec_effect i s
  cases hu.symm.trans h
  exact he

theorem execWith_effect (p : OpenParams) (rnd : Byte) (i : Instr) (s : State) :
    ∃ t, execWith p rnd i s = .next t ∧ Effect s i t := by
  rcases execWith_cases p rnd i s with ⟨x, y, rfl, e⟩ | ⟨x, y, rfl, e⟩ | ⟨x, nn, rfl, e⟩ | e <;>
    rw [e]
  · exact ⟨_, rfl, .flagged _ _ _ _ (.inl rfl) (.inr rfl)⟩
  · exact ⟨_, rfl, .flagged _ _ _ _ (.inl rfl) (.inr rfl)⟩
  · exact ⟨_, rfl, .random x nn _ s.draws⟩
  · exact exec_effect i s

/-! ### The writers of each element (10_state.md R36)

In each proof the constructors that write the element are named; every other one leaves it. -/

namespace Effect

variable {i : Instr} {s t : State}

theorem key_same (h : Effect s i t) : t.key = s.key := by
  cases h <;> simp

theorem dt_writer (h : Effect s i t) (hne : t.dt ≠ s.dt) : ∃ x, i = .ldDtVx x := by
  cases h with
  | delay x => exact ⟨x, rfl⟩
  | _ => simp at hne

theorem st_writer (h : Effect s i t) (hne : t.st ≠ s.st) : ∃ x, i = .ldStVx x := by
  cases h with
  | sound x => exact ⟨x, rfl⟩
  | _ => simp at hne

theorem mem_writer (h : Effect s i t) (hne : t.mem ≠ s.mem) : ∃ x, i = .ldB x ∨ i = .stRegs x := by
  cases h with
  | store i vs hi hb => exact hi
  | _ => simp at hne

theorem disp_writer (h : Effect s i t) (hne : t.disp ≠ s.disp) :
    i = .cls ∨ ∃ x y n, i = .drw x y n := by
  cases h with
  | clear => exact .inl rfl
  | draw x y n => exact .inr ⟨x, y, n, rfl⟩
  | _ => simp at hne

theorem stack_writer (h : Effect s i t) (hne : t.sp ≠ s.sp ∨ t.stack ≠ s.stack) :
    i = .ret ∨ ∃ nnn, i = .call nnn := by
  cases h with
  | ret => exact .inl rfl
  | call nnn => exact .inr ⟨nnn, rfl⟩
  | _ => simp at hne

theorem wait_writer (h : Effect s i t) (hne : t.wait ≠ s.wait) : ∃ x, i = .ldVxK x := by
  cases h with
  | wait x => exact ⟨x, rfl⟩
  | key x => exact ⟨x, rfl⟩
  | _ => simp at hne

theorem i_writer (h : Effect s i t) (hne : t.i ≠ s.i) :
    (∃ nnn, i = .ldI nnn) ∨ ∃ x, i = .addI x ∨ i = .ldF x := by
  cases h with
  | index i a hi => exact hi
  | _ => simp at hne

theorem v_writer (h : Effect s i t) (r : Nibble) (hne : t.getV r ≠ s.getV r) : writesV i r := by
  cases h with
  | register i x b hx =>
    obtain rfl : r = x := by by_contra hr; simp [hr] at hne
    exact hx
  | flagged i f x b hx hf =>
    by_cases hr : r = x
    · exact hr ▸ hx
    · obtain rfl : r = vf := by
        by_contra hr'
        exact hne (by rw [State.getV_advance, State.getV_setFlagThenV, if_neg hr, if_neg hr'])
      exact hf
  | random x nn b n => by_contra (hr : ¬ r = x); simp [hr] at hne
  | load x => by_contra (hr : ¬ r.toNat ≤ x.toNat); simp [getV_loadedRegs, hr] at hne
  | draw x y n d f =>
    by_contra (hr : ¬ r = vf)
    exact hne (by rw [State.getV_advance, State.getV_setV, if_neg hr, State.getV_with_disp])
  | key x b => by_contra (hr : ¬ r = x); simp [hr] at hne
  | _ => exact absurd rfl hne

theorem fault_writer (h : Effect s i t) (hne : t.fault ≠ s.fault) : CanFault i := by
  cases h with
  | raised i code addr hi => exact hi
  | _ => simp at hne

theorem draws_writer (h : Effect s i t) (hne : t.draws ≠ s.draws) : ∃ x nn, i = .rnd x nn := by
  cases h with
  | random x nn => exact ⟨x, nn, rfl⟩
  | _ => simp at hne

/-! ### What an instruction leaves in `PC`, the stack, memory and the latch -/

/-- All that an instruction can do to `PC` (10_state.md R24). -/
theorem pc_cases (h : Effect s i t) :
    t.pc = s.pc ∨ t.pc = s.pc + 2 ∨ t.pc = s.pc + 4 ∨
    (∃ nnn, (i = .jp nnn ∨ i = .call nnn) ∧ t.pc = zextAddr nnn) ∨
    (∃ nnn, i = .jpV0 nnn ∧ t.pc = zextAddr nnn + zextByte (s.getV 0)) ∨
    (i = .ret ∧ ∃ h : 0 < s.sp.val, t.pc = s.stack[s.sp.val - 1]'(by omega) + 2) := by
  cases h with
  | raised => exact .inl rfl
  | wait => exact .inl rfl
  | skip i taken => cases taken <;> simp
  | jump nnn => exact .inr (.inr (.inr (.inl ⟨nnn, .inl rfl, rfl⟩)))
  | call nnn => exact .inr (.inr (.inr (.inl ⟨nnn, .inr rfl, rfl⟩)))
  | jumpOffset nnn => exact .inr (.inr (.inr (.inr (.inl ⟨nnn, rfl, rfl⟩))))
  | ret h => exact .inr (.inr (.inr (.inr (.inr ⟨rfl, h, rfl⟩))))
  | _ => exact .inr (.inl (by simp))

/-- All that an instruction can do to the call stack: no new live entry, or `PC` pushed. -/
theorem stack_cases (h : Effect s i t) :
    (t.stack = s.stack ∧ t.sp.val ≤ s.sp.val) ∨
    ∃ h : s.sp.val < 16, t.stack = s.stack.set s.sp.val s.pc h ∧ t.sp.val = s.sp.val + 1 := by
  cases h with
  | call nnn h => exact .inr ⟨h, rfl, rfl⟩
  | ret h => exact .inl ⟨rfl, Nat.sub_le _ _⟩
  | _ => exact .inl ⟨by simp, by simp⟩

theorem mem_wf (h : Effect s i t) (hm : s.mem.wf) : t.mem.wf := by
  cases h with
  | store i vs hi hb => exact s.mem.wf_setRange _ vs hm hb
  | load => rw [State.advance_mem, State.setVs_mem]; exact hm
  | _ => exact hm

/-- The record that an instruction leaves where there was none (60_exceptions.md R251). -/
theorem fault_record {r : FaultRecord} (h : Effect s i t) (hs : s.fault = none)
    (ht : t.fault = some r) :
    r.pc = some s.pc ∧ r.word = some (encode i) ∧ (r.addr ≠ none ↔ r.code = .memoryOutOfBounds) ∧
      r.code ≠ .loadError := by
  cases h with
  | raised i code addr hi haddr hcode =>
    cases ht
    exact ⟨rfl, rfl, haddr, hcode⟩
  | _ => simp [hs] at ht

/-! ### The invariant of memory, `PC` and the stack -/

/-- The largest `PC` an executed instruction can leave is that of BNNN: 0xFFF + 0xFF (R24). -/
theorem pc_le (h : Effect s i t) (hpc : s.pc.toNat ≤ 0xFFE)
    (hlive : ∀ k : Fin 16, k.val < s.sp.val → s.stack[k.val].toNat ≤ 0xFFE) :
    t.pc.toNat ≤ 0x10FE := by
  rcases h.pc_cases with e | e | e | ⟨nnn, -, e⟩ | ⟨nnn, -, e⟩ | ⟨-, h0, e⟩ <;> rw [e]
  · omega
  · bv_omega
  · bv_omega
  · rw [zextAddr_toNat]
    omega
  · have := zextAddr_toNat nnn
    have := zextByte_toNat (s.getV 0)
    bv_omega
  · have := hlive ⟨s.sp.val - 1, by omega⟩ (by simp only; omega)
    bv_omega

theorem live_le (h : Effect s i t) (hpc : s.pc.toNat ≤ 0xFFE)
    (hlive : ∀ k : Fin 16, k.val < s.sp.val → s.stack[k.val].toNat ≤ 0xFFE) :
    ∀ k : Fin 16, k.val < t.sp.val → t.stack[k.val].toNat ≤ 0xFFE := by
  intro k hk
  rcases h.stack_cases with ⟨hst, hsp⟩ | ⟨hlt, hst, hsp⟩
  · simp only [hst]
    exact hlive k (by omega)
  · simp only [hst, Vector.getElem_set]
    split
    · exact hpc
    · exact hlive k (by omega)

/-- An instruction executes at `PC ≤ 0xFFE` only (40_step_cycle.md R125), so it keeps the
invariant. -/
theorem runInv (h : Effect s i t) (hi : fetchInstr s = .ok i) (hs : RunInv s) : RunInv t := by
  obtain ⟨hwf, -, hlive⟩ := hs
  obtain ⟨w, hw, -⟩ := fetchInstr_ok hi
  have hpc := pc_le_of_fetchWord hw
  exact ⟨h.mem_wf hwf, h.pc_le hpc hlive, h.live_le hpc hlive⟩

end Effect

/-- Settles O17: a halted step and a fault before the execute stage keep all three elements, and
every effect of an instruction keeps the invariant. -/
theorem stepKeepsInvariant : Obligations.StepKeepsInvariant := by
  intro s t hs h
  rcases step_cases s with ⟨-, e⟩ | ⟨-, r, -, e⟩ | ⟨-, i, hi, e⟩
  · cases e.symm.trans h
    exact hs
  · cases e.symm.trans h
    exact hs
  · exact (effect_of_exec (e.symm.trans h)).runInv hi hs

theorem runInv_stepWith {p : OpenParams} {rnd : Byte} {s t : State} (hs : RunInv s)
    (h : stepWith p rnd s = .next t) : RunInv t := by
  rcases stepWith_cases p rnd s with ⟨-, e⟩ | ⟨-, r, -, e⟩ | ⟨-, i, hi, e⟩
  · cases e.symm.trans h
    exact hs
  · cases e.symm.trans h
    exact hs
  · obtain ⟨u, hu, he⟩ := execWith_effect p rnd i s
    cases (e.trans hu).symm.trans h
    exact he.runInv hi hs

theorem runInv_resetWith (p : OpenParams) (image : List Byte) (s : State) :
    RunInv (resetWith p image s) := by
  have hpc : (emptyReset p s).pc.toNat ≤ 0x10FE := by rw [emptyReset_pc]; decide
  have hlive : ∀ k : Fin 16, k.val < (emptyReset p s).sp.val →
      (emptyReset p s).stack[k.val].toNat ≤ 0xFFE := fun k hk => absurd hk (Nat.not_lt_zero _)
  rcases resetWith_cases p image s with ⟨hl, e⟩ | ⟨-, e⟩ <;> rw [e]
  · refine ⟨Memory.wf_setRange _ _ _ (emptyReset_wf p s) ?_, hpc, hlive⟩
    rw [config_memSize]
    omega
  · exact ⟨emptyReset_wf p s, hpc, hlive⟩

/-- Settles O18: a reset establishes the invariant, `step(rnd)` keeps it as `step` does, and the
other operations write none of its elements. -/
theorem hostOperationsKeepInvariant : Obligations.HostOperationsKeepInvariant := by
  intro p op s t hs h
  cases op with
  | reset image => exact Host.Outcome.next.inj h ▸ runInv_resetWith p image s
  | step rnd => exact runInv_stepWith hs h
  | setKey k => cases h; unfold setKey; split <;> exact hs
  | tickTimers => cases h; unfold tickTimers; split <;> exact hs
  | readDisplay => cases h; exact hs
  | readSound => cases h; exact hs

/-! ### The invariant of `WAIT` -/

theorem waitInv_of_wait_eq_false {s : State} (h : s.wait = false) : WaitInv s :=
  fun hw => absurd (h.symm.trans hw) Bool.false_ne_true

/-- `WaitInv` looks at memory, `PC`, `WAIT` and `FAULT` only. -/
theorem WaitInv.congr {s t : State} (hs : WaitInv s) (hmem : t.mem = s.mem) (hpc : t.pc = s.pc)
    (hwait : t.wait = s.wait) (hfault : t.fault = s.fault) : WaitInv t := by
  unfold WaitInv
  rw [fetchInstr_congr hmem hpc, hwait, hfault]
  exact hs

/-- Only FX0A can leave `WAIT` set: it sets it, and no other instruction executes while it is
set. -/
theorem exists_ldVxK_of_wait {i : Instr} {s t : State} (h : Effect s i t) (hs : WaitInv s)
    (hi : fetchInstr s = .ok i) (ht : t.wait = true) : ∃ x, i = .ldVxK x := by
  by_cases hw : s.wait = true
  · obtain ⟨-, x, hx⟩ := hs hw
    exact ⟨x, by simpa using hi.symm.trans hx⟩
  · exact h.wait_writer fun e => hw (e ▸ ht)

theorem waitInv_stepWith {p : OpenParams} {rnd : Byte} {s t : State} (hs : WaitInv s)
    (h : stepWith p rnd s = .next t) : WaitInv t := by
  rcases stepWith_cases p rnd s with ⟨-, e⟩ | ⟨-, r, hr, e⟩ | ⟨hf, i, hi, e⟩
  · cases e.symm.trans h
    exact hs
  · cases e.symm.trans h
    intro hw
    obtain ⟨-, x, hx⟩ := hs hw
    cases hr.symm.trans hx
  · obtain ⟨u, hu, he⟩ := execWith_effect p rnd i s
    cases (e.trans hu).symm.trans h
    intro ht
    obtain ⟨x, rfl⟩ := exists_ldVxK_of_wait he hs hi ht
    rcases execLdVxK_cases x s with ⟨-, e'⟩ | ⟨k, -, e'⟩ <;>
      cases (show execLdVxK x s = _ from hu).symm.trans e'
    · exact ⟨hf, x, (fetchInstr_congr rfl rfl).trans hi⟩
    · cases ht

theorem waitInv_resetWith (p : OpenParams) (image : List Byte) (s : State) :
    WaitInv (resetWith p image s) := by
  apply waitInv_of_wait_eq_false
  rcases resetWith_cases p image s with ⟨-, e⟩ | ⟨-, e⟩ <;> rw [e] <;> rfl

/-- Settles O19: a step leaves `WAIT` set only through an FX0A that found no key, which stays where
it is; no other operation sets it or moves the block away from it. -/
theorem waitingBlockStandsOnItsKeyWait : Obligations.WaitingBlockStandsOnItsKeyWait := by
  intro p op s t hs h
  cases op with
  | reset image => exact Host.Outcome.next.inj h ▸ waitInv_resetWith p image s
  | step rnd => exact waitInv_stepWith hs h
  | setKey k => cases h; unfold setKey; split <;> exact hs.congr rfl rfl rfl rfl
  | tickTimers => cases h; unfold tickTimers; split <;> exact hs.congr rfl rfl rfl rfl
  | readDisplay => cases h; exact hs
  | readSound => cases h; exact hs

/-! ### Runs -/

theorem exists_next_stepWith (p : OpenParams) (rnd : Byte) (s : State) :
    ∃ t, stepWith p rnd s = .next t := by
  rcases stepWith_cases p rnd s with ⟨-, e⟩ | ⟨-, r, -, e⟩ | ⟨-, i, -, e⟩
  · exact ⟨s, e⟩
  · exact ⟨s.latch r, e⟩
  · obtain ⟨t, ht, -⟩ := execWith_effect p rnd i s
    exact ⟨t, e.trans ht⟩

theorem exists_next_apply (p : OpenParams) (op : HostOp) (s : State) :
    ∃ t, op.apply p s = .next t := by
  cases op
  case step rnd => exact exists_next_stepWith p rnd s
  all_goals exact ⟨_, rfl⟩

/-- Every run ends, and what every operation keeps holds at its end. -/
theorem exists_next_runOps {P : State → Prop} {p : OpenParams}
    (hP : ∀ op s t, P s → HostOp.apply p op s = .next t → P t) (ops : List HostOp) (s : State)
    (hs : P s) : ∃ t, runOps p ops s = .next t ∧ P t := by
  induction ops generalizing s with
  | nil => exact ⟨s, rfl, hs⟩
  | cons op ops ih =>
    obtain ⟨u, hu⟩ := exists_next_apply p op s
    rw [runOps, hu]
    exact ih u (hP op s u hs hu)

/-- Settles O20, by induction on the run: the load establishes both invariants, and every operation
keeps both. -/
theorem everyRunMeetsTheInvariants : Obligations.EveryRunMeetsTheInvariants := by
  intro p image ops s
  refine exists_next_runOps (P := fun t => RunInv t ∧ WaitInv t) ?_ ops _
    ⟨runInv_resetWith p image s, waitInv_resetWith p image s⟩
  rintro op s t ⟨hr, hw⟩ h
  exact ⟨hostOperationsKeepInvariant p op s t hr h, waitingBlockStandsOnItsKeyWait p op s t hw h⟩

/-! ### The fault record -/

/-- Settles O12: the fetch and decode stages record what they fetched, and an executing instruction
records its own encoding, which is the fetched word. -/
theorem faultRecordNamesWordAndPc : Obligations.FaultRecordNamesWordAndPc := by
  intro s t r hs h ht
  rcases step_cases s with ⟨hf, -⟩ | ⟨-, r', hr, e⟩ | ⟨-, i, hi, e⟩
  · exact absurd hs hf
  · cases e.symm.trans h
    cases ht
    rcases fetchInstr_error hr with ⟨a, ha, rfl⟩ | ⟨w, -, hw, -, rfl⟩
    · exact ⟨rfl, fun w hw => (nomatch ha.symm.trans hw), fun _ _ => rfl, by simp, by simp⟩
    · refine ⟨rfl, fun w' hw' => ?_, fun a ha => (nomatch hw.symm.trans ha), by simp, by simp⟩
      cases hw.symm.trans hw'
      rfl
  · obtain ⟨w, hw, hd⟩ := fetchInstr_ok hi
    obtain ⟨hpc, hword, haddr, hcode⟩ := (effect_of_exec (e.symm.trans h)).fault_record hs ht
    rw [encode_of_decodeWord hd] at hword
    refine ⟨hpc, fun w' hw' => ?_, fun a ha => (nomatch hw.symm.trans ha), haddr, hcode⟩
    cases hw.symm.trans hw'
    exact hword

/-! ### The table of `PC` -/

theorem keyMatches_iff (key : Option Nibble) (b : Byte) :
    keyMatches key b = true ↔ key.map BitVec.toNat = some b.toNat := by
  cases key with
  | none => simp [keyMatches]
  | some k =>
    have := k.isLt
    rw [keyMatches, beq_iff_eq, ← BitVec.toNat_inj, BitVec.toNat_setWidth,
      Nat.mod_eq_of_lt (by omega), Option.map_some, Option.some_inj]

theorem fault_of_raiseBy {i : Instr} {code : FaultCode} {addr : Option Nat} {s t : State}
    (h : raiseBy i code addr s = .next t) : t.fault ≠ none := by
  cases h
  exact Option.some_ne_none _

theorem pc_of_storeAtI {i : Instr} {bytes : List Byte} {s t : State}
    (h : storeAtI i bytes s = .next t) (ht : t.fault = none) : t.pc = s.pc + 2 := by
  rcases storeAtI_cases i bytes s with ⟨-, -, e⟩ | ⟨-, e⟩ <;> rw [e] at h
  · exact absurd ht (fault_of_raiseBy h)
  · cases h; rfl

/-- The sum of BNNN fits in 16 bits, so it is not reduced (41_control_flow.md R144). -/
theorem zextAddr_add_zextByte_toNat (nnn : Addr) (b : Byte) :
    (zextAddr nnn + zextByte b).toNat = nnn.toNat + b.toNat := by
  have := nnn.isLt
  have := b.isLt
  rw [BitVec.toNat_add, zextAddr_toNat, zextByte_toNat, Nat.mod_eq_of_lt (by omega)]

/-- Settles O14, one row of the table after the other; a meaning that can raise a fault is split by
what it can answer, and its fault is shut out by the premise. -/
theorem pcFollowsTheTable : Obligations.PcFollowsTheTable := by
  intro i s t _ h ht
  cases i
  case jp nnn => cases h; exact zextAddr_toNat nnn
  case call nnn =>
    rcases execCall_cases nnn s with ⟨-, e⟩ | ⟨_, e⟩ <;> rw [exec, e] at h
    · exact absurd ht (fault_of_raiseBy h)
    · cases h; exact zextAddr_toNat nnn
  case jpV0 nnn => cases h; exact zextAddr_add_zextByte_toNat nnn (s.getV 0)
  case ret =>
    rcases execRet_cases s with ⟨-, e⟩ | ⟨h0, e⟩ <;> rw [exec, e] at h
    · exact absurd ht (fault_of_raiseBy h)
    · cases h; exact ⟨_, Vector.getElem?_eq_getElem (by omega), rfl⟩
  case seImm | sneImm | seReg | sneReg => cases h; simp [BitVec.toNat_inj]
  case skp x => cases h; simp only [State.skipIf_pc, keyMatches_iff]
  case sknp x =>
    cases h
    simp only [State.skipIf_pc, ← keyMatches_iff]
    cases keyMatches s.key (s.getV x) <;> rfl
  case ldVxK x =>
    rcases execLdVxK_cases x s with ⟨hk, e⟩ | ⟨k, hk, e⟩ <;> rw [exec, e] at h <;> cases h <;>
      simp [hk]
  case sys nnn => exact absurd ht (fault_of_raiseBy h)
  case ldB x => exact pc_of_storeAtI h ht
  case stRegs x => exact pc_of_storeAtI h ht
  case ldRegs x =>
    rcases execLdRegs_cases x s with ⟨-, e⟩ | ⟨-, e⟩ <;> rw [exec, e] at h
    · exact absurd ht (fault_of_raiseBy h)
    · cases h; simp
  case drw x y n =>
    rcases execDrw_cases x y n s with ⟨-, -, e⟩ | ⟨-, d, -, e⟩ <;> rw [exec, e] at h
    · exact absurd ht (fault_of_raiseBy h)
    · cases h; rfl
  all_goals cases h; rfl

/-- Settles O21: the writers of each element, read off `Effect`. -/
theorem eachElementHasItsWriters : Obligations.EachElementHasItsWriters := by
  intro i s t h
  have he := effect_of_exec h
  refine ⟨he.key_same, he.dt_writer, he.st_writer, fun a ha => he.mem_writer ?_,
    fun px py hp => he.disp_writer ?_, he.stack_writer, he.wait_writer, he.i_writer, he.v_writer,
    ?_, he.fault_writer, he.draws_writer⟩
  · exact fun e => ha (by rw [e])
  · exact fun e => hp (by rw [e])
  · rintro ⟨h0, h2, h4⟩
    rcases he.pc_cases with e | e | e | ⟨nnn, hi | hi, -⟩ | ⟨nnn, hi, -⟩ | ⟨hi, -⟩
    · exact absurd e h0
    · exact absurd e h2
    · exact absurd e h4
    · exact .inr ⟨nnn, .inl hi⟩
    · exact .inr ⟨nnn, .inr (.inl hi)⟩
    · exact .inr ⟨nnn, .inr (.inr hi)⟩
    · exact .inl hi

/-! ### Each meaning with two outcomes, as one equation per condition -/

theorem execRet_of_empty {s : State} (h : s.sp.val = 0) :
    execRet s = raiseBy .ret .stackUnderflow none s := by
  rcases execRet_cases s with ⟨-, e⟩ | ⟨h', -⟩
  · exact e
  · omega

theorem execRet_of_pos {s : State} (h : 0 < s.sp.val) :
    execRet s = .next ({ s with sp := ⟨s.sp.val - 1, by omega⟩ }.jumpTo
      (s.stack[s.sp.val - 1]'(by omega) + 2)) := by
  rcases execRet_cases s with ⟨h', -⟩ | ⟨_, e⟩
  · omega
  · exact e

theorem execCall_of_full {nnn : Addr} {s : State} (h : s.sp.val = 16) :
    execCall nnn s = raiseBy (.call nnn) .stackOverflow none s := by
  rcases execCall_cases nnn s with ⟨-, e⟩ | ⟨h', -⟩
  · exact e
  · omega

theorem execCall_of_lt {nnn : Addr} {s : State} (h : s.sp.val < 16) :
    execCall nnn s = .next ({ s with
      stack := s.stack.set s.sp.val s.pc h, sp := ⟨s.sp.val + 1, by omega⟩ }.jumpTo
        (zextAddr nnn)) := by
  rcases execCall_cases nnn s with ⟨h', -⟩ | ⟨_, e⟩
  · omega
  · exact e

theorem execLdVxK_of_none {x : Nibble} {s : State} (h : s.key = none) :
    execLdVxK x s = .next { s with wait := true } := by
  rw [execLdVxK, h]

theorem execLdVxK_of_some {x : Nibble} {s : State} {k : Nibble} (h : s.key = some k) :
    execLdVxK x s = .next ({ s with wait := false }.setV x (k.setWidth 8)).advance := by
  rw [execLdVxK, h]

/-! ### The stack entries, `ST` and `WAIT` are read by next to no instruction -/

/-- The state with other contents of the stack entries, `ST` and `WAIT`. -/
def State.overlay (s : State) (stack : Vector Word 16) (st : Byte) (wait : Bool) : State :=
  { s with stack := stack, st := st, wait := wait }

/-- The instructions that read or write the stack, or write `ST` or `WAIT`. -/
def TouchesOverlay (i : Instr) : Prop :=
  i = .ret ∨ (∃ nnn, i = .call nnn) ∨ (∃ x, i = .ldStVx x) ∨ ∃ x, i = .ldVxK x

section

variable (s : State) (stack : Vector Word 16) (st : Byte) (wait : Bool)

@[simp] theorem State.overlay_mem : (s.overlay stack st wait).mem = s.mem := rfl
@[simp] theorem State.overlay_i : (s.overlay stack st wait).i = s.i := rfl
@[simp] theorem State.overlay_disp : (s.overlay stack st wait).disp = s.disp := rfl
@[simp] theorem State.getV_overlay (r : Nibble) :
    (s.overlay stack st wait).getV r = s.getV r := rfl

theorem State.setVs_overlay (k : Nat) (bs : List Byte) :
    (s.overlay stack st wait).setVs k bs = (s.setVs k bs).overlay stack st wait := by
  induction bs generalizing s k with
  | nil => rfl
  | cons b bs ih => exact ih (s.setV _ b) (k + 1)

end

section

variable {s t : State} (stack : Vector Word 16) (st : Byte) (wait : Bool)

theorem storeAtI_overlay {i : Instr} {bytes : List Byte} (h : storeAtI i bytes s = .next t) :
    storeAtI i bytes (s.overlay stack st wait) = .next (t.overlay stack st wait) := by
  simp only [storeAtI, State.overlay_mem, State.overlay_i] at h ⊢
  split at h <;> cases h <;> rfl

theorem execDrw_overlay {x y n : Nibble} (h : execDrw x y n s = .next t) :
    execDrw x y n (s.overlay stack st wait) = .next (t.overlay stack st wait) := by
  simp only [execDrw, State.overlay_mem, State.overlay_i, State.getV_overlay,
    State.overlay_disp] at h ⊢
  split at h <;> cases h <;> rfl

theorem execLdRegs_overlay {x : Nibble} (h : execLdRegs x s = .next t) :
    execLdRegs x (s.overlay stack st wait) = .next (t.overlay stack st wait) := by
  simp only [execLdRegs, State.overlay_mem, State.overlay_i, State.setVs_overlay] at h ⊢
  split at h <;> cases h <;> rfl

/-- Every other instruction runs under the overlay as it runs without it. -/
theorem exec_overlay {i : Instr} (hi : ¬ TouchesOverlay i) (h : exec i s = .next t) :
    exec i (s.overlay stack st wait) = .next (t.overlay stack st wait) := by
  cases i
  case ret | call | ldStVx | ldVxK => exact absurd (by simp [TouchesOverlay]) hi
  case ldB x => exact storeAtI_overlay stack st wait h
  case stRegs x => exact storeAtI_overlay stack st wait h
  case ldRegs x => exact execLdRegs_overlay stack st wait h
  case drw x y n => exact execDrw_overlay stack st wait h
  all_goals cases h; rfl

end

/-- Every other instruction leaves the overlaid elements and `SP` as they are. -/
theorem Effect.overlay_same {i : Instr} {s t : State} (h : Effect s i t)
    (hi : ¬ TouchesOverlay i) :
    t.stack = s.stack ∧ t.sp = s.sp ∧ t.st = s.st ∧ t.wait = s.wait := by
  obtain ⟨hret, hcall, hst, hkey⟩ : i ≠ .ret ∧ (¬ ∃ nnn, i = .call nnn) ∧
      (¬ ∃ x, i = .ldStVx x) ∧ ¬ ∃ x, i = .ldVxK x := by simpa [TouchesOverlay] using hi
  have hstack : ¬ (t.sp ≠ s.sp ∨ t.stack ≠ s.stack) :=
    fun hne => (h.stack_writer hne).elim hret hcall
  rw [not_or, not_not, not_not] at hstack
  exact ⟨hstack.2, hstack.1, not_not.1 (mt h.st_writer hst), not_not.1 (mt h.wait_writer hkey)⟩

/-! ### Dead stack entries -/

/-- A relation of states that agree on what the halted check and the fetch read carries over a step
when it carries over a latched record and over the instruction. -/
theorem exists_step_related {R : State → State → Prop} {s s' t : State} (h : step s = .next t)
    (hR : R s s') (hmem : s'.mem = s.mem) (hpc : s'.pc = s.pc) (hfault : s'.fault = s.fault)
    (hlatch : ∀ r, R (s.latch r) (s'.latch r))
    (hexec : ∀ i, exec i s = .next t → ∃ t', exec i s' = .next t' ∧ R t t') :
    ∃ t', step s' = .next t' ∧ R t t' := by
  have hfetch := fetchInstr_congr hmem hpc
  rcases step_cases s with ⟨hf, e⟩ | ⟨hf, r, hr, e⟩ | ⟨hf, i, hi, e⟩
  · cases e.symm.trans h
    exact ⟨s', by simp [step, (halted_iff s').2 (hfault ▸ hf)], hR⟩
  · cases e.symm.trans h
    exact ⟨s'.latch r, by simp [step, not_halted s' (hfault.trans hf), hfetch, hr], hlatch r⟩
  · obtain ⟨t', ht', hRt⟩ := hexec i (e.symm.trans h)
    exact ⟨t', by simp [step, not_halted s' (hfault.trans hf), hfetch, hi, ht'], hRt⟩

section

variable {i : Instr} {s t : State} {k : Vector Word 16}

theorem execRet_deadStack (hlive : ∀ j : Fin 16, j.val < s.sp.val → k[j.val] = s.stack[j.val])
    (h : execRet s = .next t) :
    ∃ t', execRet { s with stack := k } = .next t' ∧ SameButDeadStack t t' := by
  rcases Nat.eq_zero_or_pos s.sp.val with h0 | h0
  · cases (execRet_of_empty h0).symm.trans h
    exact ⟨_, execRet_of_empty (s := { s with stack := k }) h0, rfl, hlive⟩
  · cases (execRet_of_pos h0).symm.trans h
    have htop : k[s.sp.val - 1] = s.stack[s.sp.val - 1] :=
      hlive ⟨s.sp.val - 1, by omega⟩ (by simp only; omega)
    refine ⟨_, execRet_of_pos (s := { s with stack := k }) h0, ?_, fun j hj => hlive j ?_⟩
    · simp only [htop]
      rfl
    · exact Nat.lt_of_lt_of_le hj (Nat.sub_le _ _)

theorem execCall_deadStack {nnn : Addr}
    (hlive : ∀ j : Fin 16, j.val < s.sp.val → k[j.val] = s.stack[j.val])
    (h : execCall nnn s = .next t) :
    ∃ t', execCall nnn { s with stack := k } = .next t' ∧ SameButDeadStack t t' := by
  rcases execCall_cases nnn s with ⟨h0, e⟩ | ⟨h0, e⟩ <;> cases e.symm.trans h
  · exact ⟨_, execCall_of_full (s := { s with stack := k }) h0, rfl, hlive⟩
  · refine ⟨_, execCall_of_lt (s := { s with stack := k }) h0, rfl, fun j hj => ?_⟩
    simp only [State.jumpTo_stack, Vector.getElem_set]
    split
    · rfl
    · exact hlive j (by simp only [State.jumpTo_sp] at hj; omega)

theorem exec_deadStack (hlive : ∀ j : Fin 16, j.val < s.sp.val → k[j.val] = s.stack[j.val])
    (h : exec i s = .next t) :
    ∃ t', exec i { s with stack := k } = .next t' ∧ SameButDeadStack t t' := by
  by_cases hi : TouchesOverlay i
  · rcases hi with rfl | ⟨nnn, rfl⟩ | ⟨x, rfl⟩ | ⟨x, rfl⟩
    · exact execRet_deadStack hlive h
    · exact execCall_deadStack hlive h
    · cases h
      exact ⟨_, rfl, rfl, hlive⟩
    · rcases execLdVxK_cases x s with ⟨hk, e⟩ | ⟨b, hk, e⟩ <;> cases e.symm.trans h
      · exact ⟨_, execLdVxK_of_none (s := { s with stack := k }) hk, rfl, hlive⟩
      · exact ⟨_, execLdVxK_of_some (s := { s with stack := k }) hk, rfl, hlive⟩
  · obtain ⟨hstack, hsp, hst, hwait⟩ := (effect_of_exec h).overlay_same hi
    refine ⟨_, exec_overlay k s.st s.wait hi h, ?_, fun j hj => ?_⟩
    · rw [← hst, ← hwait]
      rfl
    · simp only [hstack]
      exact hlive j (hsp ▸ hj)

end

/-- Settles O24: the fetch reads no stack entry, RET reads the top live one, and every other
instruction runs under a changed stack as under the old one. -/
theorem deadStackEntriesAreNeverRead : Obligations.DeadStackEntriesAreNeverRead := by
  rintro s s' t ⟨hs', hlive⟩ h
  obtain ⟨k, rfl⟩ : ∃ k, s' = { s with stack := k } := ⟨_, hs'⟩
  exact exists_step_related h ⟨rfl, hlive⟩ rfl rfl rfl (fun _ => ⟨rfl, hlive⟩)
    (fun _ => exec_deadStack hlive)

/-! ### `ST` and `WAIT` -/

theorem changesOnly_withSoundAndWait (st : Byte) (wait : Bool) (s : State) :
    ChangesOnly (fun e => e = .st ∨ e = .wait) s (withSoundAndWait st wait s) := by
  intro e he
  cases e <;> first | rfl | simp at he

theorem overlay_eq_withSoundAndWait {s : State} {stack : Vector Word 16} (h : s.stack = stack)
    (st : Byte) (wait : Bool) : s.overlay stack st wait = withSoundAndWait st wait s := by
  subst h
  rfl

theorem exec_withSoundAndWait {i : Instr} {s t : State} (st : Byte) (wait : Bool)
    (h : exec i s = .next t) : ∃ st' wait',
      exec i (withSoundAndWait st wait s) = .next (withSoundAndWait st' wait' t) := by
  by_cases hi : TouchesOverlay i
  · rcases hi with rfl | ⟨nnn, rfl⟩ | ⟨x, rfl⟩ | ⟨x, rfl⟩
    · rcases Nat.eq_zero_or_pos s.sp.val with h0 | h0
      · cases (execRet_of_empty h0).symm.trans h
        exact ⟨st, wait, execRet_of_empty (s := withSoundAndWait st wait s) h0⟩
      · cases (execRet_of_pos h0).symm.trans h
        exact ⟨st, wait, execRet_of_pos (s := withSoundAndWait st wait s) h0⟩
    · rcases execCall_cases nnn s with ⟨h0, e⟩ | ⟨h0, e⟩ <;> cases e.symm.trans h
      · exact ⟨st, wait, execCall_of_full (s := withSoundAndWait st wait s) h0⟩
      · exact ⟨st, wait, execCall_of_lt (s := withSoundAndWait st wait s) h0⟩
    · cases h
      exact ⟨s.getV x, wait, rfl⟩
    · rcases execLdVxK_cases x s with ⟨hk, e⟩ | ⟨k, hk, e⟩ <;> cases e.symm.trans h
      · exact ⟨st, true, execLdVxK_of_none (s := withSoundAndWait st wait s) hk⟩
      · exact ⟨st, false, execLdVxK_of_some (s := withSoundAndWait st wait s) hk⟩
  · obtain ⟨hstack, -⟩ := (effect_of_exec h).overlay_same hi
    refine ⟨st, wait, ?_⟩
    rw [← overlay_eq_withSoundAndWait hstack, ← overlay_eq_withSoundAndWait rfl]
    exact exec_overlay s.stack st wait hi h

/-- Settles O25: neither the halted check nor the fetch reads `ST` or `WAIT`, and an instruction
that writes one of them writes what it writes from `s`. -/
theorem soundAndWaitSteerNothing : Obligations.SoundAndWaitSteerNothing := by
  intro s t st wait h
  have hframe := changesOnly_withSoundAndWait st wait
  refine exists_step_related h (hframe s) rfl rfl rfl (fun r => hframe (s.latch r)) fun i hi => ?_
  obtain ⟨st', wait', e⟩ := exec_withSoundAndWait st wait hi
  exact ⟨_, e, changesOnly_withSoundAndWait st' wait' t⟩

/-! ### Canonical memories -/

/-- The listed cells of a canonical memory are those whose read differs from the reset contents. -/
theorem Memory.mem_iff {m : Memory} (hm : m.wf) (c : Host.Cell) :
    c ∈ m ↔ c.2 = m.get c.1 ∧ c.2 ≠ Memory.unlisted c.1 := by
  obtain ⟨hsorted, hcells⟩ := hm
  constructor
  · exact fun hc => ⟨(m.get_of_mem c hsorted hc).symm, (hcells c hc).2⟩
  · rintro ⟨hget, hne⟩
    by_contra hc
    refine hne (hget.trans (m.get_of_not_listed c.1 fun d hd ha => hc ?_))
    have hd2 := m.get_of_mem d hsorted hd
    rw [ha, ← hget] at hd2
    exact (Prod.ext ha hd2.symm : d = c) ▸ hd

/-- Settles O60: equal reads give the same listed cells, and a strictly rising list is fixed by its
members. -/
theorem equalReadsAreEqualMemories : Obligations.EqualReadsAreEqualMemories := by
  intro m m' hm hm' h
  have hmem : ∀ c, c ∈ m ↔ c ∈ m' := fun c => by rw [Memory.mem_iff hm, Memory.mem_iff hm', h]
  have hirrefl : Std.Irrefl fun c d : Host.Cell => c.1 < d.1 := ⟨fun c => Nat.lt_irrefl c.1⟩
  have hantisymm : Std.Antisymm fun c d : Host.Cell => c.1 < d.1 :=
    ⟨fun c d h h' => absurd h (Nat.lt_asymm h')⟩
  exact hm.1.eq_of_mem_iff hm'.1 hmem

/-! ### The state after reset -/

/-- Settles O16: the block after reset is a literal with `SP` = 0 and `WAIT` = 0. -/
theorem resetMeetsInvariants : Obligations.ResetMeetsInvariants := by
  have hlive : ∀ k : Fin 16, k.val < State.reset.sp.val → State.reset.stack[k.val].toNat % 2 = 0 :=
    fun k hk => absurd hk (Nat.not_lt_zero _)
  exact ⟨by decide, waitInv_of_wait_eq_false rfl, ⟨by decide, hlive⟩, rfl⟩

/-- Settles O59: memory by `emptyReset_get`, every other element by its value in `Block.reset`. -/
theorem resetValues : Obligations.ResetValues := by
  refine ⟨fun p u => ?_, fun u => ?_, rfl⟩
  · rw [resetWith_nil]
    refine ⟨emptyReset_get p u, fun r => ?_, rfl, rfl, rfl, fun k hk => ?_, rfl, rfl, rfl, rfl, rfl,
      lit_clear, rfl⟩
    · exact Vector.getElem_replicate _
    · exact Vector.getElem?_replicate_of_lt hk
  · rw [resetWith_nil, emptyReset_default]

end Sys2Proof.Machine

namespace Sys2Proof.Machine

/-! ### The fetch (20_memory.md R64, R65) -/

/-- A fetch out of range ends the step in the latch, before any instruction's rule runs. -/
theorem step_raised_of_fetchWord_error {s : State} {a : Nat} (hs : s.fault = none)
    (ha : fetchWord s = .error a) :
    ∃ t, step s = .next t ∧ Raised .memoryOutOfBounds none (some a) s t := by
  refine ⟨s.latch ⟨.memoryOutOfBounds, none, some s.pc, some a⟩, ?_, rfl, changesOnly_latch s _⟩
  simp [step, not_halted s hs, fetchInstr, ha]

/-- Settles O8: the fetch answers with the first of `PC`, `PC + 1` that is out of range. -/
theorem fetchOutsideMemoryFaults : Obligations.FetchOutsideMemoryFaults := by
  intro s hs
  simp only [config_memSize]
  rcases fetchWord_cases s with ⟨h, e⟩ | ⟨h, e⟩ | ⟨h, -⟩
  · exact ⟨fun _ => step_raised_of_fetchWord_error hs e, by omega⟩
  · exact ⟨by omega, fun _ => step_raised_of_fetchWord_error hs e⟩
  · exact ⟨by omega, by omega⟩

theorem fetchWord_of_inside {s : State} (h : s.pc.toNat + 1 < config.memSize) :
    fetchWord s = .ok (wordOfBytes (s.mem.get s.pc.toNat) (s.mem.get (s.pc.toNat + 1))) := by
  rw [config_memSize] at h
  rcases fetchWord_cases s with ⟨h', -⟩ | ⟨h', -⟩ | ⟨-, e⟩
  · omega
  · omega
  · exact e

/-! ### Stored bytes are code (20_memory.md R73) -/

/-- A store that completes leaves the stored bytes laid over the old memory. -/
theorem get_of_storeAtI {i : Instr} {bytes : List Byte} {s t : State}
    (h : storeAtI i bytes s = .next t) (ht : t.fault = none) (a : Nat) :
    t.mem.get a = overlaid s bytes a := by
  rcases storeAtI_cases i bytes s with ⟨-, -, e⟩ | ⟨-, e⟩ <;> rw [e] at h
  · exact absurd ht (fault_of_raiseBy h)
  · cases h
    exact s.mem.get_setRange s.i.toNat a bytes

/-- A fetch after a completed store, at any `PC` inside memory, is a fetch from the memory with the
stored bytes laid over it. -/
theorem fetchWord_of_storeAtI {i : Instr} {bytes : List Byte} {s t : State} {pc : Word}
    (h : storeAtI i bytes s = .next t) (ht : t.fault = none)
    (hpc : pc.toNat + 1 < config.memSize) :
    fetchWord { t with pc := pc } =
      .ok (wordOfBytes (overlaid s bytes pc.toNat) (overlaid s bytes (pc.toNat + 1))) := by
  have hget := get_of_storeAtI h ht
  rw [fetchWord_of_inside (s := { t with pc := pc }) hpc, hget, hget]

/-- Settles O27: FX33 and FX55 are both stores at `I`, and the fetch reads the memory they leave. -/
theorem storedBytesAreFetchedNext : Obligations.StoredBytesAreFetchedNext := by
  intro x s t pc ht hpc
  exact ⟨fun h => fetchWord_of_storeAtI (i := .ldB x) h ht hpc,
    fun h => fetchWord_of_storeAtI (i := .stRegs x) h ht hpc⟩

end Sys2Proof.Machine

/-! # Proofs about the encoding (spec 30_encoding.md)

The encoder and the decoder are inverse to each other on the well-formed instructions; the decoder
fails exactly on the five sets of R97. The agreement with the table's columns follows from the
first: a word in a row is the word of an instruction of that row. -/

namespace Sys2Proof

/-! ### The two words that are no `SYS` (R96 row 3) -/

theorem Instr.wellFormed_iff (i : Instr) : i.WellFormed ↔ i ≠ .sys 0x0E0 ∧ i ≠ .sys 0x0EE := by
  cases i <;> simp [Instr.WellFormed, Instr.wellFormed]

theorem decodeWord_00E0 : decodeWord 0x00E0 = .ok .cls := by decide

theorem decodeWord_00EE : decodeWord 0x00EE = .ok .ret := by decide

theorem formatA_inj {op : Nibble} {a b : Addr} : formatA op a = formatA op b ↔ a = b :=
  ⟨fun h => by simpa using congrArg fieldNNN h, congrArg (formatA op)⟩

theorem decode0_encode_sys {nnn : Addr} (h : (Instr.sys nnn).WellFormed) :
    decode0 (encode (.sys nnn)) = .sys nnn := by
  obtain ⟨hE0, hEE⟩ := (Instr.wellFormed_iff _).mp h
  have hcls : encode (.sys nnn) ≠ 0x00E0 := fun e => hE0 (congrArg _ (formatA_inj.mp e))
  have hret : encode (.sys nnn) ≠ 0x00EE := fun e => hEE (congrArg _ (formatA_inj.mp e))
  rw [decode0, if_neg hcls, if_neg hret]
  exact congrArg _ (fieldNNN_formatA 0x0 nnn)

/-! ### Decoding an encoded instruction (R94, R96) -/

/-- The split is by the level of the lookup that decides: a whole word, a family's function, or the
primary key alone. -/
theorem decodeWord_encode {i : Instr} (h : i.WellFormed) : decodeWord (encode i) = .ok i := by
  cases i
  case cls => exact decodeWord_00E0
  case ret => exact decodeWord_00EE
  case sys nnn =>
    have hop : fieldOp (encode (.sys nnn)) = 0x0 := fieldOp_formatA 0x0 nnn
    simp [decodeWord, hop, decode0_encode_sys h]
  case ldReg | orReg | andReg | xorReg | addReg | sub | shr | subn | shl =>
    simp [encode, decodeWord, decode8]
  case skp | sknp => simp [encode, decodeWord, decodeE]
  case ldVxDt | ldVxK | ldDtVx | ldStVx | addI | ldF | ldB | stRegs | ldRegs =>
    simp [encode, decodeWord, decodeF]
  all_goals simp [encode, decodeWord]

theorem decode_bytes_append {w : Word} {i : Instr} (h : decodeWord w = .ok i)
    (rest : List Byte) : decode ([highByte w, lowByte w] ++ rest) = .ok (i, rest) := by
  simp [decode, h]

/-- Settles O2: by the field that each format puts back where the decoder looks for it. -/
theorem decodeOfEncodeIsIdentity : Obligations.DecodeOfEncodeIsIdentity := fun _ hi =>
  ⟨decodeWord_encode hi, decode_bytes_append (decodeWord_encode hi)⟩

/-! ### Encoding a decoded instruction (R95, R99) -/

/-- No word decodes to one of the two ill-formed terms: each would be the word of `CLS` or `RET`. -/
theorem wellFormed_of_decodeWord {w : Word} {i : Instr} (h : decodeWord w = .ok i) :
    i.WellFormed := by
  rw [Instr.wellFormed_iff]
  constructor <;> rintro rfl <;> obtain rfl := encode_of_decodeWord h
  · cases decodeWord_00E0.symm.trans h
  · cases decodeWord_00EE.symm.trans h

/-- Settles O3: the two words that the check of R96 row 3 excludes decode to `CLS` and `RET`. -/
theorem encodeOfDecodeIsIdentity : Obligations.EncodeOfDecodeIsIdentity := fun _ _ h =>
  ⟨wellFormed_of_decodeWord h, encode_of_decodeWord h⟩

/-! ### The words that decode to nothing (R97) -/

/-- A decoder's answer `r` for the word `w` is the error that names `w` when `P` holds, and an
instruction when it does not. -/
def FailsExactly (r : Except DecodeError Instr) (w : Word) (P : Prop) : Prop :=
  (P → r = .error (.illegal w)) ∧ (¬ P → ∃ i, r = .ok i)

theorem failsExactly_ok {i : Instr} {w : Word} {P : Prop} (h : ¬ P) : FailsExactly (.ok i) w P :=
  ⟨fun hP => absurd hP h, fun _ => ⟨i, rfl⟩⟩

theorem failsExactly_error {w : Word} {P : Prop} (h : P) :
    FailsExactly (.error (.illegal w)) w P :=
  ⟨fun _ => rfl, fun hP => absurd h hP⟩

theorem FailsExactly.eq_error_iff {r : Except DecodeError Instr} {w : Word} {P : Prop}
    (h : FailsExactly r w P) : r = .error (.illegal w) ↔ P := by
  refine ⟨fun hr => ?_, h.1⟩
  by_contra hP
  obtain ⟨i, hi⟩ := h.2 hP
  cases hr.symm.trans hi

theorem failsExactly_decode8 (w : Word) : FailsExactly (decode8 w) w
    ((fieldN w).toNat ∈ [0x8, 0x9, 0xA, 0xB, 0xC, 0xD, 0xF]) := by
  unfold decode8
  split
  case h_10 =>
    have := (fieldN w).isLt
    refine failsExactly_error ?_
    simp only [List.mem_cons, List.not_mem_nil, imp_false] at *
    omega
  all_goals
    next hn => exact failsExactly_ok (by rw [hn]; decide)

theorem failsExactly_decodeE (w : Word) : FailsExactly (decodeE w) w
    ((fieldNN w).toNat ∉ [0x9E, 0xA1]) := by
  unfold decodeE
  split
  case h_3 => exact failsExactly_error (by simp_all)
  all_goals
    next hnn => exact failsExactly_ok (by rw [hnn]; decide)

theorem failsExactly_decodeF (w : Word) : FailsExactly (decodeF w) w
    ((fieldNN w).toNat ∉ [0x07, 0x0A, 0x15, 0x18, 0x1E, 0x29, 0x33, 0x55, 0x65]) := by
  unfold decodeF
  split
  case h_10 => exact failsExactly_error (by simp_all)
  all_goals
    next hnn => exact failsExactly_ok (by rw [hnn]; decide)

/-- R97's sets in the fields that the decoder reads. -/
theorem illegalWord_iff (w : Word) : Machine.IllegalWord w ↔
    ((fieldOp w).toNat = 5 ∧ fieldN w ≠ 0) ∨
    ((fieldOp w).toNat = 8 ∧ (fieldN w).toNat ∈ [0x8, 0x9, 0xA, 0xB, 0xC, 0xD, 0xF]) ∨
    ((fieldOp w).toNat = 9 ∧ fieldN w ≠ 0) ∨
    ((fieldOp w).toNat = 0xE ∧ (fieldNN w).toNat ∉ [0x9E, 0xA1]) ∨
    ((fieldOp w).toNat = 0xF ∧
      (fieldNN w).toNat ∉ [0x07, 0x0A, 0x15, 0x18, 0x1E, 0x29, 0x33, 0x55, 0x65]) := by
  rw [show fieldN w ≠ 0 ↔ (fieldN w).toNat ≠ 0 from not_congr BitVec.toNat_eq, fieldOp_toNat,
    fieldN_toNat, fieldNN_toNat]
  rfl

theorem failsExactly_decodeWord (w : Word) :
    FailsExactly (decodeWord w) w (Machine.IllegalWord w) := by
  rw [illegalWord_iff]
  unfold decodeWord
  split
  case h_9 e => simpa [e] using failsExactly_decode8 w
  case h_15 e => simpa [e] using failsExactly_decodeE w
  case h_16 =>
    have e : (fieldOp w).toNat = 0xF := by
      have := (fieldOp w).isLt
      simp only [imp_false] at *
      omega
    simpa [e] using failsExactly_decodeF w
  case h_6 e | h_10 e =>
    split
    · next hn => exact failsExactly_ok (by simp [e, hn])
    · next hn => exact failsExactly_error (by simpa [e] using hn)
  all_goals
    next e => exact failsExactly_ok (by simp [e])

/-- Settles O4: family by family, as R94 looks a word up. -/
theorem illegalWordsAreTheFiveSets : Obligations.IllegalWordsAreTheFiveSets := fun w =>
  ⟨(failsExactly_decodeWord w).eq_error_iff, (failsExactly_decodeWord w).2⟩

/-! ### The decoder and the pattern table (R94, R96) -/

/-- Mask 0xF000 fixes the primary key. -/
theorem fieldOp_of_mask {w : Word} {op : Nibble} (h : w &&& 0xF000 = formatA op 0) :
    fieldOp w = op := by
  have hw : w &&& 0xF000 = formatA (fieldOp w) 0 :=
    (congrArg (· &&& 0xF000) (formatA_fields w)).symm.trans (Laws.PatternRow.and_formatA _ _)
  simpa using congrArg fieldOp (hw.symm.trans h)

theorem formatA_of_mask {w : Word} {op : Nibble} (h : w &&& 0xF000 = formatA op 0) :
    formatA op (fieldNNN w) = w := formatA_of_fieldOp (fieldOp_of_mask h)

theorem formatXK_of_mask {w : Word} {op : Nibble} (h : w &&& 0xF000 = formatA op 0) :
    formatXK op (fieldX w) (fieldNN w) = w := formatXK_of_fields (fieldOp_of_mask h) rfl

theorem formatXYN_of_mask {w : Word} {op : Nibble} (h : w &&& 0xF000 = formatA op 0) :
    formatXYN op (fieldX w) (fieldY w) (fieldN w) = w :=
  formatXYN_of_fields (fieldOp_of_mask h) rfl

/-- Mask 0xF00F fixes the primary key and `N`. -/
theorem formatXY_of_mask {w : Word} {op n : Nibble} (h : w &&& 0xF00F = formatXYN op 0 0 n) :
    formatXYN op (fieldX w) (fieldY w) n = w := by
  have hw : w &&& 0xF00F = formatXYN (fieldOp w) 0 0 (fieldN w) :=
    (congrArg (· &&& 0xF00F) (formatXYN_fields w)).symm.trans
      (Laws.PatternRow.and_formatXYN _ _ _ _)
  have hf := hw.symm.trans h
  exact formatXYN_of_fields (by simpa using congrArg fieldOp hf) (by simpa using congrArg fieldN hf)

/-- Mask 0xF0FF fixes the primary key and `NN`. -/
theorem formatXF_of_mask {w : Word} {op : Nibble} {nn : Byte}
    (h : w &&& 0xF0FF = formatXK op 0 nn) : formatXK op (fieldX w) nn = w := by
  have hw : w &&& 0xF0FF = formatXK (fieldOp w) 0 (fieldNN w) :=
    (congrArg (· &&& 0xF0FF) (formatXK_fields w)).symm.trans
      (Laws.PatternRow.and_formatXK _ _ _)
  have hf := hw.symm.trans h
  exact formatXK_of_fields (by simpa using congrArg fieldOp hf) (by simpa using congrArg fieldNN hf)

/-- Mask 0xFFFF fixes the word. -/
theorem eq_of_mask {v w : Word} (h : w &&& 0xFFFF = v) : v = w :=
  h.symm.trans BitVec.and_allOnes

/-- A word that has a row's fixed bits is the word of an instruction of that row: the one whose
operands are the word's fields. -/
theorem exists_encode_of_mask {w : Word} : ∀ j : Instr,
    w &&& (patternRow j).mask = (patternRow j).value →
      ∃ i, patternRow i = patternRow j ∧ encode i = w
  | .cls, h => ⟨.cls, rfl, eq_of_mask h⟩
  | .ret, h => ⟨.ret, rfl, eq_of_mask h⟩
  | .sys _, h => ⟨.sys (fieldNNN w), rfl, formatA_of_mask h⟩
  | .jp _, h => ⟨.jp (fieldNNN w), rfl, formatA_of_mask h⟩
  | .call _, h => ⟨.call (fieldNNN w), rfl, formatA_of_mask h⟩
  | .seImm _ _, h => ⟨.seImm (fieldX w) (fieldNN w), rfl, formatXK_of_mask h⟩
  | .sneImm _ _, h => ⟨.sneImm (fieldX w) (fieldNN w), rfl, formatXK_of_mask h⟩
  | .seReg _ _, h => ⟨.seReg (fieldX w) (fieldY w), rfl, formatXY_of_mask h⟩
  | .ldImm _ _, h => ⟨.ldImm (fieldX w) (fieldNN w), rfl, formatXK_of_mask h⟩
  | .addImm _ _, h => ⟨.addImm (fieldX w) (fieldNN w), rfl, formatXK_of_mask h⟩
  | .ldReg _ _, h => ⟨.ldReg (fieldX w) (fieldY w), rfl, formatXY_of_mask h⟩
  | .orReg _ _, h => ⟨.orReg (fieldX w) (fieldY w), rfl, formatXY_of_mask h⟩
  | .andReg _ _, h => ⟨.andReg (fieldX w) (fieldY w), rfl, formatXY_of_mask h⟩
  | .xorReg _ _, h => ⟨.xorReg (fieldX w) (fieldY w), rfl, formatXY_of_mask h⟩
  | .addReg _ _, h => ⟨.addReg (fieldX w) (fieldY w), rfl, formatXY_of_mask h⟩
  | .sub _ _, h => ⟨.sub (fieldX w) (fieldY w), rfl, formatXY_of_mask h⟩
  | .shr _ _, h => ⟨.shr (fieldX w) (fieldY w), rfl, formatXY_of_mask h⟩
  | .subn _ _, h => ⟨.subn (fieldX w) (fieldY w), rfl, formatXY_of_mask h⟩
  | .shl _ _, h => ⟨.shl (fieldX w) (fieldY w), rfl, formatXY_of_mask h⟩
  | .sneReg _ _, h => ⟨.sneReg (fieldX w) (fieldY w), rfl, formatXY_of_mask h⟩
  | .ldI _, h => ⟨.ldI (fieldNNN w), rfl, formatA_of_mask h⟩
  | .jpV0 _, h => ⟨.jpV0 (fieldNNN w), rfl, formatA_of_mask h⟩
  | .rnd _ _, h => ⟨.rnd (fieldX w) (fieldNN w), rfl, formatXK_of_mask h⟩
  | .drw _ _ _, h => ⟨.drw (fieldX w) (fieldY w) (fieldN w), rfl, formatXYN_of_mask h⟩
  | .skp _, h => ⟨.skp (fieldX w), rfl, formatXF_of_mask h⟩
  | .sknp _, h => ⟨.sknp (fieldX w), rfl, formatXF_of_mask h⟩
  | .ldVxDt _, h => ⟨.ldVxDt (fieldX w), rfl, formatXF_of_mask h⟩
  | .ldVxK _, h => ⟨.ldVxK (fieldX w), rfl, formatXF_of_mask h⟩
  | .ldDtVx _, h => ⟨.ldDtVx (fieldX w), rfl, formatXF_of_mask h⟩
  | .ldStVx _, h => ⟨.ldStVx (fieldX w), rfl, formatXF_of_mask h⟩
  | .addI _, h => ⟨.addI (fieldX w), rfl, formatXF_of_mask h⟩
  | .ldF _, h => ⟨.ldF (fieldX w), rfl, formatXF_of_mask h⟩
  | .ldB _, h => ⟨.ldB (fieldX w), rfl, formatXF_of_mask h⟩
  | .stRegs _, h => ⟨.stRegs (fieldX w), rfl, formatXF_of_mask h⟩
  | .ldRegs _, h => ⟨.ldRegs (fieldX w), rfl, formatXF_of_mask h⟩

/-- The exception noted for 0NNN: an instruction of that row is well formed unless its word is that
of `CLS` or `RET`. -/
theorem wellFormed_of_encode_ne {i : Instr}
    (h : patternRow i = patternRow (.sys 0) → encode i ≠ 0x00E0 ∧ encode i ≠ 0x00EE) :
    i.WellFormed := by
  rw [Instr.wellFormed_iff]
  constructor <;> rintro rfl <;> obtain ⟨hE0, hEE⟩ := h rfl
  · exact hE0 rfl
  · exact hEE rfl

/-- Settles O5: a word in a row is the word of an instruction of that row, and the two inverse
laws carry the row from the word to what it decodes to and back. -/
theorem decoderAgreesWithPatternTable : Obligations.DecoderAgreesWithPatternTable := by
  intro w j
  constructor
  · rintro ⟨i, hd, hrow⟩
    refine ⟨?_, fun hsys => ⟨?_, ?_⟩⟩
    · rw [← hrow, ← encode_of_decodeWord hd]
      exact Laws.PatternRow.every i
    · rintro rfl
      cases decodeWord_00E0.symm.trans hd
      cases hrow.trans hsys
    · rintro rfl
      cases decodeWord_00EE.symm.trans hd
      cases hrow.trans hsys
  · rintro ⟨hmask, hne⟩
    obtain ⟨i, hrow, rfl⟩ := exists_encode_of_mask j hmask
    exact ⟨i, decodeWord_encode (wellFormed_of_encode_ne fun hsys => hne (hrow ▸ hsys)), hrow⟩

/-! ### The words that the spec spells out -/

/-- Settles O1: each legal word is the word of its instruction, and each illegal one lies in a set
of R97. -/
theorem sampleWordsDecode : Obligations.SampleWordsDecode :=
  ⟨decodeWord_encode (i := .drw 7 0xA 3) rfl, decodeWord_encode (i := .addReg 0xA 0xB) rfl,
    decodeWord_encode (i := .ldRegs 1) rfl, decodeWord_00E0, decodeWord_00EE,
    decodeWord_encode (i := .sys 0x1E0) rfl, decodeWord_encode (i := .sys 0) rfl,
    decodeWord_encode (i := .call 0x300) rfl, decodeWord_encode (i := .seImm 3 0x2A) rfl,
    decodeWord_encode (i := .sknp 4) rfl,
    (failsExactly_decodeWord 0x5121).1 (by simp [Machine.IllegalWord]),
    (failsExactly_decodeWord 0x812F).1 (by simp [Machine.IllegalWord])⟩

end Sys2Proof

/-! # Proofs about the step cycle (spec 40_step_cycle.md)

A step runs what it fetched and is defined on every state; a waiting status has one cause, an FX0A
that found no key; and no host operation sees the host's counter: from any other count it does the
same to the block. -/

namespace Sys2Proof.Machine

/-! ### The three ends of a step (R120, R121, R129) -/

theorem step_of_halted {s : State} (hs : s.fault ≠ none) : step s = .next s := by
  simp [step, (halted_iff s).2 hs]

theorem step_of_fetchInstr {s : State} {i : Instr} (hs : s.fault = none)
    (hi : fetchInstr s = .ok i) : step s = exec i s := by
  simp [step, not_halted s hs, hi]

section

variable {p : OpenParams} {rnd : Byte} {s : State}

theorem stepWith_of_halted (hs : s.fault ≠ none) : stepWith p rnd s = .next s := by
  simp [stepWith, (halted_iff s).2 hs]

theorem stepWith_of_fetchInstr_error {r : FaultRecord} (hs : s.fault = none)
    (hr : fetchInstr s = .error r) : stepWith p rnd s = .next (s.latch r) := by
  simp [stepWith, not_halted s hs, hr]

theorem stepWith_of_fetchInstr {i : Instr} (hs : s.fault = none)
    (hi : fetchInstr s = .ok i) : stepWith p rnd s = execWith p rnd i s := by
  simp [stepWith, not_halted s hs, hi]

end

theorem fetchInstr_of_fetchWord {s : State} {w : Word} {i : Instr} (hw : fetchWord s = .ok w)
    (hd : decodeWord w = .ok i) : fetchInstr s = .ok i := by
  simp [fetchInstr, hw, hd]

/-- Settles O6: with both addresses inside memory the fetch gives the big-endian word. -/
theorem stepRunsTheDecodedInstruction : Obligations.StepRunsTheDecodedInstruction :=
  fun _ _ hs hpc hd =>
    step_of_fetchInstr hs (fetchInstr_of_fetchWord (fetchWord_of_inside hpc) hd)

theorem exists_next_step (s : State) : ∃ t, step s = .next t := by
  rcases step_cases s with ⟨-, e⟩ | ⟨-, r, -, e⟩ | ⟨-, i, -, e⟩
  · exact ⟨s, e⟩
  · exact ⟨s.latch r, e⟩
  · obtain ⟨t, ht, -⟩ := exec_effect i s
    exact ⟨t, e.trans ht⟩

/-- Settles O10: a halted block and a latched record are next states, and the execute stage, at
every setting of the open parameters, has no other outcome. -/
theorem stepIsDefinedOnEveryState : Obligations.StepIsDefinedOnEveryState := fun s p rnd =>
  ⟨exists_next_step s, exists_next_stepWith p rnd s⟩

/-! ### The status (R127) -/

theorem status_of_fault {s : State} (hs : s.fault ≠ none) : s.status = .fault := by
  simp [State.status, (halted_iff s).2 hs]

/-- Settles O7: the halted check comes before every other stage, and before `WAIT` in the status. -/
theorem stepLeavesAHaltedBlock : Obligations.StepLeavesAHaltedBlock := by
  intro s r hr
  have hs : s.fault ≠ none := hr ▸ Option.some_ne_none r
  exact ⟨step_of_halted hs, status_of_fault hs⟩

/-- The table of R127. -/
theorem status_cases (s : State) :
    (s.fault ≠ none ∧ s.status = .fault) ∨
    (s.fault = none ∧ s.wait = false ∧ s.status = .ok) ∨
    (s.fault = none ∧ s.wait = true ∧ s.status = .waiting) := by
  by_cases hf : s.fault = none
  · have hh := not_halted s hf
    cases hw : s.wait
    · exact .inr (.inl ⟨hf, rfl, by simp [State.status, hh, hw]⟩)
    · exact .inr (.inr ⟨hf, rfl, by simp [State.status, hh, hw]⟩)
  · exact .inl ⟨hf, status_of_fault hf⟩

theorem changesOnly_wait (s : State) (wait : Bool) :
    ChangesOnly (fun e => e = .wait) s { s with wait := wait } := by
  intro e he
  cases e with
  | wait => exact absurd rfl he
  | _ => rfl

/-- A step that leaves the block waiting is that of an FX0A that found no key (R233). -/
theorem step_to_waiting {s t : State} (hs : WaitInv s) (h : step s = .next t)
    (hf : t.fault = none) (hw : t.wait = true) :
    s.key = none ∧ (∃ x, fetchInstr s = .ok (.ldVxK x)) ∧ t = { s with wait := true } := by
  rcases step_cases s with ⟨hs', e⟩ | ⟨-, r, -, e⟩ | ⟨-, i, hi, e⟩
  · cases e.symm.trans h
    exact absurd hf hs'
  · cases e.symm.trans h
    cases hf
  · have hexec := e.symm.trans h
    obtain ⟨x, rfl⟩ := exists_ldVxK_of_wait (effect_of_exec hexec) hs hi hw
    rcases execLdVxK_cases x s with ⟨hk, e'⟩ | ⟨k, -, e'⟩ <;> cases e'.symm.trans hexec
    · exact ⟨hk, ⟨x, hi⟩, rfl⟩
    · cases hw

/-- Settles O15: row by row of the status table, of which only the last asks what the step did. -/
theorem statusSaysWhatTheStepDid : Obligations.StatusSaysWhatTheStepDid := by
  intro s t hs h
  rcases status_cases t with ⟨hf, e⟩ | ⟨hf, hw, e⟩ | ⟨hf, hw, e⟩
  · exact ⟨by simp [e, hf], by simp [e], by simp [e]⟩
  · exact ⟨by simp [e, hf], fun _ => ⟨hf, hw⟩, by simp [e]⟩
  · refine ⟨by simp [e, hf], by simp [e], fun _ => ?_⟩
    obtain ⟨hkey, hinstr, rfl⟩ := step_to_waiting hs h hf hw
    exact ⟨hf, hw, hkey, hinstr, changesOnly_wait s true⟩

/-! ### The host's counter (10_state.md R34)

Each lemma says that an operation commutes with the update of `draws`. With the old count as the new
one, this says too that the operation leaves the count as it is. -/

theorem State.halted_with_draws (s : State) (n : Nat) :
    State.halted { s with draws := n } = s.halted := rfl

theorem State.setVs_with_draws (s : State) (n k : Nat) (bs : List Byte) :
    State.setVs { s with draws := n } k bs = { s.setVs k bs with draws := n } := by
  induction bs generalizing s k with
  | nil => rfl
  | cons b bs ih => exact ih (s.setV _ b) (k + 1)

section

variable {p : OpenParams} {rnd : Byte} {i : Instr} {s t : State} (n : Nat)

theorem storeAtI_with_draws {bytes : List Byte} (h : storeAtI i bytes s = .next t) :
    storeAtI i bytes { s with draws := n } = .next { t with draws := n } := by
  simp only [storeAtI] at h ⊢
  split at h <;> cases h <;> rfl

theorem execDrw_with_draws {x y m : Nibble} (h : execDrw x y m s = .next t) :
    execDrw x y m { s with draws := n } = .next { t with draws := n } := by
  simp only [execDrw, State.getV_with_draws] at h ⊢
  split at h <;> cases h <;> rfl

theorem execLdRegs_with_draws {x : Nibble} (h : execLdRegs x s = .next t) :
    execLdRegs x { s with draws := n } = .next { t with draws := n } := by
  simp only [execLdRegs, State.setVs_with_draws] at h ⊢
  split at h <;> cases h <;> rfl

theorem execRet_with_draws (h : execRet s = .next t) :
    execRet { s with draws := n } = .next { t with draws := n } := by
  rcases Nat.eq_zero_or_pos s.sp.val with h0 | h0
  · cases (execRet_of_empty h0).symm.trans h
    exact execRet_of_empty (s := { s with draws := n }) h0
  · cases (execRet_of_pos h0).symm.trans h
    exact execRet_of_pos (s := { s with draws := n }) h0

theorem execCall_with_draws {nnn : Addr} (h : execCall nnn s = .next t) :
    execCall nnn { s with draws := n } = .next { t with draws := n } := by
  rcases execCall_cases nnn s with ⟨h0, e⟩ | ⟨h0, e⟩ <;> cases e.symm.trans h
  · exact execCall_of_full (s := { s with draws := n }) h0
  · exact execCall_of_lt (s := { s with draws := n }) h0

theorem execLdVxK_with_draws {x : Nibble} (h : execLdVxK x s = .next t) :
    execLdVxK x { s with draws := n } = .next { t with draws := n } := by
  rcases execLdVxK_cases x s with ⟨hk, e⟩ | ⟨k, hk, e⟩ <;> cases e.symm.trans h
  · exact execLdVxK_of_none (s := { s with draws := n }) hk
  · exact execLdVxK_of_some (s := { s with draws := n }) hk

/-- The execute stage is given its random byte, so it looks for none in the host's sequence. -/
theorem execWith_with_draws (h : execWith p rnd i s = .next t) :
    execWith p rnd i { s with draws := n } = .next { t with draws := n } := by
  cases i
  case ret => exact execRet_with_draws n h
  case call nnn => exact execCall_with_draws n h
  case ldVxK x => exact execLdVxK_with_draws n h
  case ldB x => exact storeAtI_with_draws n h
  case stRegs x => exact storeAtI_with_draws n h
  case ldRegs x => exact execLdRegs_with_draws n h
  case drw x y m => exact execDrw_with_draws n h
  all_goals cases h; rfl

theorem stepWith_with_draws (h : stepWith p rnd s = .next t) :
    stepWith p rnd { s with draws := n } = .next { t with draws := n } := by
  have hfetch : fetchInstr { s with draws := n } = fetchInstr s := fetchInstr_congr rfl rfl
  rcases stepWith_cases p rnd s with ⟨hs, e⟩ | ⟨hs, r, hr, e⟩ | ⟨hs, i, hi, e⟩
  · cases e.symm.trans h
    exact stepWith_of_halted (s := { s with draws := n }) hs
  · cases e.symm.trans h
    exact stepWith_of_fetchInstr_error (s := { s with draws := n }) hs (hfetch.trans hr)
  · rw [stepWith_of_fetchInstr (s := { s with draws := n }) hs (hfetch.trans hi)]
    exact execWith_with_draws n (e.symm.trans h)

end

theorem resetWith_with_draws (p : OpenParams) (image : List Byte) (s : State) (n : Nat) :
    resetWith p image { s with draws := n } = { resetWith p image s with draws := n } := by
  rw [resetWith, resetWith]
  split <;> rfl

theorem setKey_with_draws (k : Option Nibble) (s : State) (n : Nat) :
    setKey k { s with draws := n } = { setKey k s with draws := n } := by
  rw [setKey, setKey, State.halted_with_draws]
  split <;> rfl

theorem tickTimers_with_draws (s : State) (n : Nat) :
    tickTimers { s with draws := n } = { tickTimers s with draws := n } := by
  rw [tickTimers, tickTimers, State.halted_with_draws]
  split <;> rfl

theorem HostOp.apply_with_draws {p : OpenParams} {op : HostOp} {s t : State} (n : Nat)
    (h : op.apply p s = .next t) :
    op.apply p { s with draws := n } = .next { t with draws := n } := by
  cases op with
  | reset image => obtain rfl := Host.Outcome.next.inj h; rw [HostOp.apply, resetWith_with_draws]
  | step rnd => exact stepWith_with_draws n h
  | setKey k => cases h; rw [HostOp.apply, setKey_with_draws]
  | tickTimers => cases h; rw [HostOp.apply, tickTimers_with_draws]
  | readDisplay => cases h; rfl
  | readSound => cases h; rfl

/-- An operation depends on the block alone, writes the block alone, and always completes. -/
theorem HostOp.exists_onBlock (p : OpenParams) (op : HostOp) (s : State) :
    ∃ b, op.onBlock p s.toBlock = .next b ∧ op.apply p s = .next { s with toBlock := b } := by
  obtain ⟨t, ht⟩ := exists_next_apply p op { s.toBlock with draws := 0 }
  have hs := HostOp.apply_with_draws s.draws ht
  exact ⟨t.toBlock, by rw [HostOp.onBlock, ht], hs⟩

/-! ### The random byte (R128) -/

theorem stepWith_rnd_irrelevant (p : OpenParams) (rnd rnd' : Byte) {s : State}
    (h : ∀ x nn, fetchInstr s ≠ .ok (.rnd x nn)) : stepWith p rnd s = stepWith p rnd' s := by
  rcases stepWith_cases p rnd s with ⟨hs, e⟩ | ⟨hs, r, hr, e⟩ | ⟨hs, i, hi, e⟩ <;> rw [e]
  · exact (stepWith_of_halted hs).symm
  · exact (stepWith_of_fetchInstr_error hs hr).symm
  · rw [stepWith_of_fetchInstr hs hi]
    exact execWith_rnd_irrelevant p rnd rnd' i s fun x nn hx => h x nn (hx ▸ hi)

section

variable {p : OpenParams} {s t : State} (hp : p.shiftSource = config.shiftSource)

include hp

/-- `exec` takes the byte at the host's place and moves the host on, for CXNN alone. -/
theorem execWith_rndInput {i : Instr} (h : exec i s = .next t) :
    execWith p s.rndInput i s = .next { t with draws := s.draws } := by
  by_cases hi : ∃ x nn, i = .rnd x nn
  · obtain ⟨x, nn, rfl⟩ := hi
    cases h
    rfl
  · have hne : ∀ x nn, i ≠ .rnd x nn := fun x nn e => hi ⟨x, nn, e⟩
    exact execWith_with_draws s.draws ((execWith_eq_exec p _ i s hp hne).trans h)

theorem stepWith_rndInput (h : step s = .next t) :
    stepWith p s.rndInput s = .next { t with draws := s.draws } := by
  rcases step_cases s with ⟨hs, e⟩ | ⟨hs, r, hr, e⟩ | ⟨hs, i, hi, e⟩
  · cases e.symm.trans h
    exact stepWith_of_halted hs
  · cases e.symm.trans h
    exact stepWith_of_fetchInstr_error hs hr
  · rw [stepWith_of_fetchInstr hs hi]
    exact execWith_rndInput hp (e.symm.trans h)

end

/-- Settles O26: the byte reaches CXNN alone, `exec` differs from the execute stage with arguments in
where CXNN finds its byte, and every operation commutes with a change of the host's counter. -/
theorem onlyRndUsesTheRandomByte : Obligations.OnlyRndUsesTheRandomByte :=
  ⟨fun p _ r r' h => stepWith_rnd_irrelevant p r r' h,
    fun _ _ _ hp h => stepWith_rndInput hp h,
    fun p op s => HostOp.exists_onBlock p op s⟩

end Sys2Proof.Machine

/-! # Proofs about control transfer (spec 41_control_flow.md)

`Effect` and the equations `execRet_of_pos`, `execCall_of_lt` and their fault cases say what a
transfer answers; what is added here is the frame of a push and of a pop, and the `RET` whose top
entry is known by value. -/

namespace Sys2Proof.Machine

/-! ### The frames of a push and a pop (R140, R143) -/

theorem changesOnly_push_jumpTo {s : State} {sp : Fin 17} {site target : Word}
    (h : s.sp.val < 16) :
    ChangesOnly (fun e => e = .pc ∨ e = .sp ∨ e = .stack s.sp.val) s
      ({ s with stack := s.stack.set s.sp.val site h, sp := sp }.jumpTo target) := by
  intro e he
  cases e with
  | pc => exact absurd (.inl rfl) he
  | sp => exact absurd (.inr (.inl rfl)) he
  | stack k =>
    have hk : s.sp.val ≠ k := fun hk => he (.inr (.inr (hk ▸ rfl)))
    exact Vector.getElem?_set_ne h hk
  | _ => rfl

theorem changesOnly_pop_jumpTo (s : State) (sp : Fin 17) (target : Word) :
    ChangesOnly (fun e => e = .pc ∨ e = .sp) s ({ s with sp := sp }.jumpTo target) := by
  intro e he
  cases e with
  | pc => exact absurd (.inl rfl) he
  | sp => exact absurd (.inr rfl) he
  | _ => rfl

/-! ### A return to a known call site (R145) -/

/-- `execRet_of_pos` with the popped entry given by its index and its value. -/
theorem execRet_of_top {s : State} {n : Nat} {site : Word} (hn : n < 16)
    (hsp : s.sp.val = n + 1) (htop : s.stack[n]? = some site) :
    execRet s = .next ({ s with sp := ⟨n, by omega⟩ }.jumpTo (site + 2)) := by
  obtain ⟨-, rfl⟩ := Vector.getElem?_eq_some_iff.mp htop
  rw [execRet_of_pos (by omega)]
  simp only [hsp, Nat.add_sub_cancel]

/-- Settles O33: the call leaves `SP` one above the entry it wrote, so the pop reads that entry. -/
theorem returnAfterCall : Obligations.ReturnAfterCall := by
  intro nnn s t u hlt hcall husp hentry
  cases (execCall_of_lt hlt).symm.trans hcall
  have hsp : u.sp.val = s.sp.val + 1 := congrArg Fin.val husp
  exact ⟨_, execRet_of_top hlt hsp hentry, rfl, rfl⟩

/-! ### Each transfer by itself -/

/-- Settles O28: the target is `NNN`, and a jump writes `PC` alone. -/
theorem jumpSetsPc : Obligations.JumpSetsPc :=
  fun nnn s => ⟨_, rfl, zextAddr_toNat nnn, changesOnly_pc s _⟩

/-- Settles O29: the sum fits in 16 bits, and a jump writes `PC` alone. -/
theorem jumpOffsetAddsRegisterZero : Obligations.JumpOffsetAddsRegisterZero :=
  fun nnn s => ⟨_, rfl, zextAddr_add_zextByte_toNat nnn (s.getV 0), changesOnly_pc s _⟩

/-- Settles O30: one equation of CALL for each side of `SP` = 16. -/
theorem callPushesTheCallSite : Obligations.CallPushesTheCallSite := by
  refine fun nnn s => ⟨fun hlt => ?_, fun hfull => ?_⟩
  · exact ⟨_, execCall_of_lt hlt, Vector.getElem?_set_self hlt, rfl, zextAddr_toNat nnn,
      changesOnly_push_jumpTo hlt⟩
  · rw [exec, execCall_of_full hfull]
    exact raiseBy_raised (.call nnn) .stackOverflow none s

/-- Settles O31: one equation of RET for each side of `SP` = 0. -/
theorem returnPopsTheCallSite : Obligations.ReturnPopsTheCallSite := by
  refine fun s => ⟨fun hpos => ?_, fun hempty => ?_⟩
  · exact ⟨_, execRet_of_pos hpos, rfl, ⟨_, Vector.getElem?_eq_getElem (by omega), rfl⟩,
      changesOnly_pop_jumpTo s _ _⟩
  · rw [exec, execRet_of_empty hempty]
    exact raiseBy_raised .ret .stackUnderflow none s

/-- The opcode field of a `SYS` word is zero, so the word is `NNN` (30_encoding.md R92). -/
theorem encode_sys (nnn : Addr) : encode (.sys nnn) = BitVec.ofNat 16 nnn.toNat := by
  have := nnn.isLt
  apply BitVec.eq_of_toNat_eq
  rw [encode, formatA_toNat, BitVec.toNat_ofNat, Nat.mod_eq_of_lt (by omega)]
  simp

/-- Settles O32: the execute stage of SYS is the fault entry with its own word. -/
theorem sysRaisesUnsupportedOpcode : Obligations.SysRaisesUnsupportedOpcode := by
  intro nnn s
  rw [← encode_sys]
  exact raiseBy_raised (.sys nnn) .unsupportedOpcode none s

end Sys2Proof.Machine

/-! # Proofs about the skips (spec 42_skips.md)

The four skips differ in their condition alone: one lemma says what a skip answers, and each skip is
that lemma with its condition read on the values. -/

namespace Sys2Proof.Machine

/-! ### What a skip answers (R154) -/

/-- An instruction that skips on `taken` moves `PC` by 4 or by 2 as the condition `P` says, and
writes `PC` alone. -/
theorem exists_skipped {i : Instr} {s : State} {taken : Bool} {P : Prop} [Decidable P]
    (h : exec i s = .next (s.skipIf taken)) (hP : taken = true ↔ P) :
    ∃ t, exec i s = .next t ∧ t.pc = (if P then s.pc + 4 else s.pc + 2) ∧
      ChangesOnly (fun e => e = .pc) s t :=
  ⟨_, h, by simp only [State.skipIf_pc, hP], changesOnly_pc s _⟩

theorem beq_iff_toNat_eq {n : Nat} {a b : BitVec n} : (a == b) = true ↔ a.toNat = b.toNat :=
  beq_iff_eq.trans BitVec.toNat_eq

theorem bne_iff_toNat_ne {n : Nat} {a b : BitVec n} : (a != b) = true ↔ a.toNat ≠ b.toNat :=
  bne_iff_ne.trans (not_congr BitVec.toNat_eq)

/-- Settles O34: a register is compared with the immediate. -/
theorem immediateSkips : Obligations.ImmediateSkips := fun _ _ _ =>
  ⟨exists_skipped rfl beq_iff_toNat_eq, exists_skipped rfl bne_iff_toNat_ne⟩

/-! ### Families 5 and 9 with `N` not 0 (R97, decision D20) -/

theorem illegalWord_formatXYN {op x y n : Nibble} (hop : op = 5 ∨ op = 9) (hn : n ≠ 0) :
    IllegalWord (formatXYN op x y n) := by
  rw [illegalWord_iff, fieldOp_formatXYN, fieldN_formatXYN]
  rcases hop with rfl | rfl
  · exact .inl ⟨rfl, hn⟩
  · exact .inr (.inr (.inl ⟨rfl, hn⟩))

/-- Settles O35: a register is compared with a register, and the words with `N` not 0 stand in two of
R97's five sets. -/
theorem registerSkips : Obligations.RegisterSkips := fun _ _ _ =>
  ⟨exists_skipped rfl beq_iff_toNat_eq, exists_skipped rfl bne_iff_toNat_ne, fun _ hn =>
    ⟨⟨_, (failsExactly_decodeWord _).1 (illegalWord_formatXYN (.inl rfl) hn)⟩,
      ⟨_, (failsExactly_decodeWord _).1 (illegalWord_formatXYN (.inr rfl) hn)⟩⟩⟩

end Sys2Proof.Machine

/-! # Proofs about register loads and the ALU (spec 43_load_and_alu.md)

Every instruction of this family answers `State.setV` or `State.setFlagThenV` and then
`State.advance`. The first part says what the registers hold after these, the second what each data
result and each flag is as a number; the obligations put the two together. -/

namespace Sys2Proof.Machine

/-! ### The registers after a data write (R173) -/

theorem State.getV_setV_advance_self (s : State) (x : Nibble) (b : Byte) :
    (s.setV x b).advance.getV x = b := by
  simp

/-- The data write comes second, so it stands for every `X`, 15 included. -/
theorem State.getV_setFlagThenV_advance_self (s : State) (f : Byte) (x : Nibble) (b : Byte) :
    (s.setFlagThenV f x b).advance.getV x = b := by
  simp

/-- The flag survives the data write when that goes to another register. -/
theorem State.getV_setFlagThenV_advance_vf (s : State) (f : Byte) {x : Nibble} (b : Byte)
    (hx : x ≠ 15) : (s.setFlagThenV f x b).advance.getV 15 = f := by
  rw [State.getV_advance, State.getV_setFlagThenV, if_neg hx.symm, if_pos rfl]

/-! ### Data results as numbers -/

theorem toNat_sub_eq_emod (a b : Byte) :
    ((a - b).toNat : Int) = ((a.toNat : Int) - b.toNat) % 256 := by
  have := a.isLt
  have := b.isLt
  rw [BitVec.toNat_sub]
  omega

theorem toNat_ushiftRight_one (b : Byte) : (b >>> 1).toNat = b.toNat / 2 := by
  rw [BitVec.toNat_ushiftRight, Nat.shiftRight_one]

theorem toNat_shiftLeft_one (b : Byte) : (b <<< 1).toNat = 2 * b.toNat % 256 := by
  rw [BitVec.toNat_shiftLeft, Nat.shiftLeft_eq, pow_one, Nat.mul_comm]

theorem and_and_not_eq_zero (a b : Byte) : a &&& b &&& ~~~b = 0 := by
  rw [BitVec.and_assoc, BitVec.and_not_self]
  exact BitVec.and_zero

/-! ### Flags as numbers (R166 to R170) -/

theorem carryFlag_toNat (a b : Byte) :
    (carryFlag a b).toNat = if a.toNat + b.toNat > 255 then 1 else 0 := by
  simp [carryFlag]

theorem noBorrowFlag_toNat (a b : Byte) :
    (noBorrowFlag a b).toNat = if a.toNat ≥ b.toNat then 1 else 0 := by
  simp [noBorrowFlag]

theorem flagByte_getLsbD_toNat (b : Byte) (k : Nat) :
    (flagByte (b.getLsbD k)).toNat = b.toNat / 2 ^ k % 2 := by
  rw [← Nat.toNat_testBit, flagByte_toNat]
  exact (cond_eq_ite _ _ _).symm

theorem shiftedOutRight_toNat (b : Byte) : (shiftedOutRight b).toNat = b.toNat % 2 := by
  rw [shiftedOutRight, flagByte_getLsbD_toNat, pow_zero, Nat.div_one]

theorem shiftedOutLeft_toNat (b : Byte) : (shiftedOutLeft b).toNat = b.toNat / 128 := by
  have := b.isLt
  rw [shiftedOutLeft, flagByte_getLsbD_toNat]
  omega

theorem shiftOperand_eq (src : ShiftSource) (x y : Nibble) (s : State) :
    shiftOperand src x y s = if src = .vy then s.getV y else s.getV x := by
  cases src <;> rfl

/-! ### The frame of CXNN with the host's own byte (R128, R171) -/

theorem changesOnly_nextRnd (s : State) : ChangesOnly (fun e => e = .draws) s s.nextRnd := by
  intro e he
  cases e with
  | draws => exact absurd rfl he
  | _ => rfl

theorem changesOnly_nextRnd_setV_advance (s : State) (x : Nibble) (b : Byte) :
    ChangesOnly (fun e => e = .pc ∨ e = .v x ∨ e = .draws) s (s.nextRnd.setV x b).advance :=
  ((changesOnly_nextRnd s).weaken fun _ h => .inr (.inr h)).trans
    ((changesOnly_setV_advance s.nextRnd x b).weaken fun _ h => h.imp_right .inl)

/-! ### Loads, the immediate sum and the logic instructions -/

/-- Settles O36: a register write with the immediate, and with the old `V[Y]`. -/
theorem loadsWriteTheRegister : Obligations.LoadsWriteTheRegister := fun x _ _ s =>
  ⟨⟨_, rfl, s.getV_setV_advance_self x _, rfl, changesOnly_setV_advance s x _⟩,
    ⟨_, rfl, s.getV_setV_advance_self x _, rfl, changesOnly_setV_advance s x _⟩⟩

/-- Settles O37: the sum of two bytes is reduced modulo 256, and one register is written. -/
theorem addImmediateWraps : Obligations.AddImmediateWraps := by
  refine fun x nn s => ⟨_, rfl, ?_, rfl, changesOnly_setV_advance s x _⟩
  rw [State.getV_setV_advance_self, BitVec.toNat_add]

/-- Settles O38: each bit of a bitwise operation is the operation on the two bits. -/
theorem logicIsBitwise : Obligations.LogicIsBitwise := by
  refine fun x y s => ⟨⟨_, rfl, fun k _ => ?_, rfl, changesOnly_setV_advance s x _⟩,
    ⟨_, rfl, fun k _ => ?_, rfl, changesOnly_setV_advance s x _⟩,
    ⟨_, rfl, fun k _ => ?_, rfl, changesOnly_setV_advance s x _⟩⟩ <;>
    rw [State.getV_setV_advance_self]
  · exact BitVec.getLsbD_or
  · exact BitVec.getLsbD_and
  · exact BitVec.getLsbD_xor

/-! ### The instructions that write `VF` -/

/-- What a flag-writing instruction leaves beside its data result: `VF` has the flag unless `X` is 15,
`PC` is advanced, and nothing else changes. -/
theorem flagged_of_toNat_eq {s : State} {x : Nibble} {f b : Byte} {flag : Nat}
    (hf : f.toNat = flag) :
    (x ≠ 15 → ((s.setFlagThenV f x b).advance.getV 15).toNat = flag) ∧
      (s.setFlagThenV f x b).advance.pc = s.pc + 2 ∧
      ChangesOnly (fun e => e = .pc ∨ e = .v x ∨ e = .v 15) s (s.setFlagThenV f x b).advance :=
  ⟨fun hx => by rw [State.getV_setFlagThenV_advance_vf s f b hx, hf], rfl,
    changesOnly_setFlagThenV_advance s x f b⟩

/-- Settles O39: the data is the sum modulo 256 and the flag the carry. -/
theorem addWithCarryOut : Obligations.AddWithCarryOut := by
  refine fun x y s => ⟨_, rfl, ?_, flagged_of_toNat_eq (carryFlag_toNat _ _)⟩
  rw [State.getV_setFlagThenV_advance_self, BitVec.toNat_add]

/-- Settles O40: the data is the difference modulo 256, an integer remainder, and the flag the
no-borrow of the same two operands. -/
theorem subtractWithNoBorrowFlag : Obligations.SubtractWithNoBorrowFlag := by
  refine fun x y s => ⟨⟨_, rfl, ?_, flagged_of_toNat_eq (noBorrowFlag_toNat _ _)⟩,
    ⟨_, rfl, ?_, flagged_of_toNat_eq (noBorrowFlag_toNat _ _)⟩⟩ <;>
    rw [State.getV_setFlagThenV_advance_self, toNat_sub_eq_emod]

/-- Settles O41: at either setting the data is the selected register shifted by one place and the
flag the bit shifted out; at the default setting `exec` is `execWith`. -/
theorem shiftsByOne : Obligations.ShiftsByOne := by
  intro p rnd x y s
  rw [← shiftOperand_eq]
  refine ⟨⟨_, rfl, fun hp => (execWith_eq_exec p rnd (.shr x y) s hp (by simp)).symm, ?_,
      flagged_of_toNat_eq (shiftedOutRight_toNat _)⟩,
    ⟨_, rfl, fun hp => (execWith_eq_exec p rnd (.shl x y) s hp (by simp)).symm, ?_,
      flagged_of_toNat_eq (shiftedOutLeft_toNat _)⟩⟩ <;>
    rw [State.getV_setFlagThenV_advance_self]
  · exact toNat_ushiftRight_one _
  · exact toNat_shiftLeft_one _

/-! ### The random byte -/

/-- Settles O42: the same register write for the byte that is an argument and for the host's own, and
a byte masked by `NN` has no bit outside `NN`. -/
theorem randomByteIsMasked : Obligations.RandomByteIsMasked := by
  refine fun p x nn rnd s =>
    ⟨⟨_, rfl, s.getV_setV_advance_self x _, rfl, changesOnly_setV_advance s x _⟩,
      ⟨_, rfl, s.nextRnd.getV_setV_advance_self x _, ?_, rfl, rfl,
        changesOnly_nextRnd_setV_advance s x _⟩⟩
  rw [State.getV_setV_advance_self]
  exact and_and_not_eq_zero _ nn

end Sys2Proof.Machine

/-! # Proofs about the index register and memory (spec 44_index_and_memory.md)

A store or load at `I` has one condition, whether its last address is inside memory: it completes on
the one side and raises on the other. `exists_stored` and `exists_loaded` say what a completed one
leaves, for FX33 and FX55 and for FX65. -/

namespace Sys2Proof.Machine

/-! ### The index register (R190 to R192) -/

theorem changesOnly_index_advance (s : State) (a : Word) :
    ChangesOnly (fun e => e = .pc ∨ e = .i) s { s with i := a }.advance := by
  intro e he
  cases e with
  | pc => exact absurd (.inl rfl) he
  | i => exact absurd (.inr rfl) he
  | _ => rfl

/-- Settles O43: the address is extended with zeros, and the sum is one of 16-bit words. -/
theorem indexLoadAndAdd : Obligations.IndexLoadAndAdd := by
  refine fun nnn x s => ⟨⟨_, rfl, zextAddr_toNat nnn, rfl, changesOnly_index_advance s _⟩,
    ⟨_, rfl, ?_, rfl, changesOnly_index_advance s _⟩⟩
  rw [State.advance_i, BitVec.toNat_add, zextByte_toNat]

/-- The glyph address of every byte fits in 16 bits, so it is not reduced. -/
theorem glyphAddress_toNat (b : Byte) : (glyphAddress b).toNat = 0x050 + 5 * b.toNat := by
  have := b.isLt
  rw [glyphAddress, config_fontBase, config_glyphBytes, BitVec.toNat_ofNat, Nat.mod_eq_of_lt (by omega)]

/-- Byte `k` of the font stands `k` cells after `FONT_BASE` (10_state.md R31). -/
theorem emptyReset_get_font (p : OpenParams) (s : State) {k : Nat} (hk : k < 80) :
    some ((emptyReset p s).mem.get (0x050 + k)) = p.font[k]? := by
  rw [emptyReset_get, if_pos (by omega), Nat.add_sub_cancel_left, Vector.getElem?_eq_getElem hk,
    Option.getD_some]

/-- Settles O44: row `r` of digit `d` is byte `5 * d + r` of the font, below 80 for the digits that
have a glyph. -/
theorem fontAddress : Obligations.FontAddress := by
  refine fun p x s => ⟨_, rfl, glyphAddress_toNat _, rfl, changesOnly_index_advance s _,
    fun hd r hr => ?_⟩
  rw [State.advance_i, glyphAddress_toNat, Nat.add_assoc]
  exact emptyReset_get_font p s (by omega)

/-! ### Stores at `I` (R193, R194) -/

section

variable {i : Instr} {bytes : List Byte} {s t : State} {n : Nat}

theorem storeAtI_of_inside (h : s.i.toNat + bytes.length ≤ config.memSize) :
    storeAtI i bytes s = .next { s with mem := s.mem.setRange s.i.toNat bytes }.advance := by
  rw [config_memSize] at h
  rcases storeAtI_cases i bytes s with ⟨-, h', -⟩ | ⟨-, e⟩
  · omega
  · exact e

/-- A store whose last address `I + n` is inside memory: the bytes stand at `I .. I + n`, and beside
`PC` nothing else changes. -/
theorem exists_stored (hn : bytes.length = n + 1) (h : s.i.toNat + n < config.memSize) :
    ∃ t, storeAtI i bytes s = .next t ∧
      (∀ k b, bytes[k]? = some b → t.mem.get (s.i.toNat + k) = b) ∧ t.pc = s.pc + 2 ∧
      ChangesOnly (fun e => e = .pc ∨ ∃ k ≤ n, e = .cell (s.i.toNat + k)) s t := by
  refine ⟨_, storeAtI_of_inside (by omega), fun k b hk => ?_, rfl,
    changesOnly_setRange_advance s _ bytes _ (.inl rfl) fun k hk => .inr ⟨k, by omega, rfl⟩⟩
  rw [State.advance_mem, Memory.get_setRange, if_pos (Nat.le_add_right _ _),
    Nat.add_sub_cancel_left, hk, Option.getD_some]

/-- A store whose last address `I + n` is outside memory. -/
theorem exists_raised_storeAtI (hn : bytes.length = n + 1)
    (h : config.memSize ≤ s.i.toNat + n) : ∃ t, storeAtI i bytes s = .next t ∧
      Raised .memoryOutOfBounds (some (encode i)) (some (max s.i.toNat config.memSize)) s t := by
  rw [config_memSize] at h ⊢
  rcases storeAtI_cases i bytes s with ⟨-, -, e⟩ | ⟨h', -⟩
  · rw [e]; exact raiseBy_raised i .memoryOutOfBounds _ s
  · omega

/-- A store that completes was inside memory. -/
theorem inside_of_storeAtI (hn : bytes.length = n + 1) (h : storeAtI i bytes s = .next t)
    (ht : t.fault = none) : s.i.toNat + n < config.memSize := by
  rw [config_memSize]
  rcases storeAtI_cases i bytes s with ⟨-, -, e⟩ | ⟨h', -⟩
  · exact absurd ht (fault_of_raiseBy (e.symm.trans h))
  · omega

end

/-- Settles O45: `exists_stored` for the three digits, each of them below 256. -/
theorem decimalStore : Obligations.DecimalStore := by
  refine fun x s => ⟨fun h => ?_, exists_raised_storeAtI (length_decimalDigits (s.getV x))⟩
  obtain ⟨t, ht, hget, hpc, hframe⟩ :=
    exists_stored (i := .ldB x) (length_decimalDigits (s.getV x)) h
  have hv := (s.getV x).isLt
  have hdigit {k m : Nat} (hk : (decimalDigits (s.getV x))[k]? = some (BitVec.ofNat 8 m))
      (hm : m < 2 ^ 8) : (t.mem.get (s.i.toNat + k)).toNat = m := by
    rw [hget k _ hk, BitVec.toNat_ofNat, Nat.mod_eq_of_lt hm]
  exact ⟨t, ht, hdigit (k := 0) rfl (by omega), hdigit rfl (by omega), hdigit rfl (by omega), hpc,
    hframe.weaken fun _ => Or.imp_right fun ⟨k, hk, he⟩ => ⟨k, Nat.lt_succ_of_le hk, he⟩⟩

/-- Settles O46: `exists_stored` for the registers up to `X`. -/
theorem registerStore : Obligations.RegisterStore := by
  refine fun x s => ⟨fun h => ?_, exists_raised_storeAtI (length_regsUpTo x s)⟩
  obtain ⟨t, ht, hget, hpc, hframe⟩ := exists_stored (i := .stRegs x) (length_regsUpTo x s) h
  exact ⟨t, ht, fun k hk => hget _ _ (getElem?_regsUpTo x s k hk), hpc, hframe⟩

/-! ### Loads from `I` (R195) -/

theorem execLdRegs_of_inside {x : Nibble} {s : State}
    (h : s.i.toNat + x.toNat < config.memSize) :
    execLdRegs x s = .next (s.setVs 0 (s.mem.getRange s.i.toNat (regCount x))).advance := by
  rw [config_memSize] at h
  rcases execLdRegs_cases x s with ⟨h', -⟩ | ⟨-, e⟩
  · rw [regCount] at h'; omega
  · exact e

theorem execLdRegs_of_outside {x : Nibble} {s : State}
    (h : config.memSize ≤ s.i.toNat + x.toNat) : execLdRegs x s =
      raiseBy (.ldRegs x) .memoryOutOfBounds (some (max s.i.toNat config.memSize)) s := by
  rw [config_memSize] at h ⊢
  rcases execLdRegs_cases x s with ⟨-, e⟩ | ⟨h', -⟩
  · exact e
  · rw [regCount] at h'; omega

theorem changesOnly_loadedRegs_advance (s : State) (base : Nat) (x : Nibble) :
    ChangesOnly (fun e => e = .pc ∨ ∃ k : Nibble, k.toNat ≤ x.toNat ∧ e = .v k) s
      (s.setVs 0 (s.mem.getRange base (regCount x))).advance := by
  intro e he
  cases e with
  | pc => exact absurd (.inl rfl) he
  | v r =>
    have hr : ¬ r.toNat ≤ x.toNat := fun hr => he (.inr ⟨r, hr, rfl⟩)
    exact (getV_loadedRegs s base x r).trans (if_neg hr)
  | _ => rw [State.setVs_frame]; rfl

/-- A load whose last address `I + X` is inside memory: the registers up to `X` hold the bytes from
`I` on, and beside `PC` nothing else changes. -/
theorem exists_loaded {x : Nibble} {s : State} (h : s.i.toNat + x.toNat < config.memSize) :
    ∃ t, exec (.ldRegs x) s = .next t ∧
      (∀ k : Nibble, k.toNat ≤ x.toNat → t.getV k = s.mem.get (s.i.toNat + k.toNat)) ∧
      t.pc = s.pc + 2 ∧
      ChangesOnly (fun e => e = .pc ∨ ∃ k : Nibble, k.toNat ≤ x.toNat ∧ e = .v k) s t := by
  refine ⟨_, execLdRegs_of_inside h, fun k hk => ?_, ?_, changesOnly_loadedRegs_advance s _ x⟩
  · exact (getV_loadedRegs s _ x k).trans (if_pos hk)
  · rw [State.advance_pc, State.setVs_pc]

/-- Settles O47: one equation of the load for each side of the end of memory. -/
theorem registerLoad : Obligations.RegisterLoad := by
  refine fun x s => ⟨exists_loaded, fun h => ?_⟩
  rw [exec, execLdRegs_of_outside h]
  exact raiseBy_raised (.ldRegs x) .memoryOutOfBounds _ s

/-! ### A store and a later load (R196) -/

/-- Settles O48: the store completed, so its range is inside memory for the load too, and the byte at
`I + k` is the old `V[k]`. -/
theorem storeThenLoadRestores : Obligations.StoreThenLoadRestores := by
  intro x s t u hst ht hi hmem
  have hin : s.i.toNat + x.toNat < config.memSize :=
    inside_of_storeAtI (length_regsUpTo x s) hst ht
  obtain ⟨t', hst', hget, -, -⟩ := (registerStore x s).1 hin
  cases hst'.symm.trans hst
  obtain ⟨w, hld, hv, -, -⟩ := exists_loaded (s := u) (x := x) (hi ▸ hin)
  refine ⟨w, hld, fun k hk => ?_⟩
  rw [hv k hk, hi, hmem _ hk, hget k hk]

end Sys2Proof.Machine

/-! # Proofs about the display (spec 45_display.md)

`drawnSprite` names the outcome of the drawing loops, and `lit_drawnSprite` and
`drawnSprite_collision_iff` are their closed form on the sprite that `SpriteCovers` describes. A draw
has one condition, `SpriteInside`: it completes with `drawnSprite` on the one side and raises on the
other. -/

namespace Sys2Proof.Machine

/-! ### The clear display (R210) -/

theorem changesOnly_disp_advance {P : Elem → Prop} {s : State} {d : Pixels} (hpc : P .pc)
    (hd : ∀ px py, ¬ P (.pixel px py) → lit d px py = lit s.disp px py) :
    ChangesOnly P s { s with disp := d }.advance := by
  intro e he
  cases e with
  | pc => exact absurd hpc he
  | pixel px py => exact hd px py he
  | _ => rfl

/-- Settles O49: the display is replaced by the all-zero one, and no register is written. -/
theorem clearTurnsEveryPixelOff : Obligations.ClearTurnsEveryPixelOff := fun _ =>
  ⟨_, rfl, lit_clear, rfl,
    changesOnly_disp_advance (.inl rfl) fun px py h => absurd (.inr ⟨px, py, rfl⟩) h⟩

/-! ### The drawing loops in closed form (R211, R212) -/

section

variable (x y n : Nibble) (s : State)

/-- The drawing loops of R211 over the sprite at `I`, from the display of `s` on. -/
def drawnSprite : Drawing :=
  drawRows (s.getV x).toNat (s.getV y).toNat 0 (s.mem.getRange s.i.toNat n.toNat)
    { disp := s.disp, collision := false }

/-- A sprite has at most 15 rows, so none of its rows wraps onto another. -/
theorem length_sprite_le : 0 + (s.mem.getRange s.i.toNat n.toNat).length ≤ 32 := by
  have := n.isLt
  rw [Memory.length_getRange]
  omega

/-- Exactly the pixels under the sprite's 1 bits are flipped. -/
theorem lit_drawnSprite (px : Fin 64) (py : Fin 32) [Decidable (SpriteCovers s x y n px py)] :
    lit (drawnSprite x y n s).disp px py =
      (lit s.disp px py ^^ decide (SpriteCovers s x y n px py)) := by
  rw [drawnSprite, (drawRows_spec _ _ _ _ (length_sprite_le n s) _).1]
  exact congrArg _ (decide_eq_decide.2 (covers_iff s x y n px py))

theorem drawnSprite_collision_iff : (drawnSprite x y n s).collision = true ↔
    ∃ px py, SpriteCovers s x y n px py ∧ lit s.disp px py = true := by
  rw [drawnSprite, (drawRows_spec _ _ _ _ (length_sprite_le n s) _).2]
  simp only [covers_iff, Bool.false_eq_true, false_or]

end

section

variable {x y n : Nibble} {s : State} {px : Fin 64} {py : Fin 32}

theorem lit_drawnSprite_of_covers (h : SpriteCovers s x y n px py) :
    lit (drawnSprite x y n s).disp px py = !lit s.disp px py := by
  classical rw [lit_drawnSprite, decide_eq_true h, Bool.xor_true]

theorem lit_drawnSprite_of_not_covers (h : ¬ SpriteCovers s x y n px py) :
    lit (drawnSprite x y n s).disp px py = lit s.disp px py := by
  classical rw [lit_drawnSprite, decide_eq_false h, Bool.xor_false]

end

/-! ### The range of the sprite (R211, decisions D9 and D24) -/

/-- The sprite has no row, or its last row `I + N - 1` is inside memory. -/
def SpriteInside (n : Nibble) (s : State) : Prop :=
  n.toNat = 0 ∨ s.i.toNat + n.toNat - 1 < config.memSize

section

variable {x y n : Nibble} {s t : State}

theorem execDrw_of_inside (h : SpriteInside n s) : execDrw x y n s =
    .next ({ s with disp := (drawnSprite x y n s).disp }.setV vf
      (flagByte (drawnSprite x y n s).collision)).advance := by
  rw [SpriteInside, config_memSize] at h
  rcases execDrw_cases x y n s with ⟨h0, h', -⟩ | ⟨-, _, rfl, e⟩
  · omega
  · exact e

theorem execDrw_of_not_inside (h : ¬ SpriteInside n s) : execDrw x y n s =
    raiseBy (.drw x y n) .memoryOutOfBounds (some (max s.i.toNat config.memSize)) s := by
  rw [SpriteInside, config_memSize] at h
  rcases execDrw_cases x y n s with ⟨-, -, e⟩ | ⟨h', -⟩
  · exact e
  · omega

theorem changesOnly_draw : ChangesOnly
    (fun e => e = .pc ∨ e = .v 15 ∨ ∃ px py, e = .pixel px py ∧ SpriteCovers s x y n px py) s
    ({ s with disp := (drawnSprite x y n s).disp }.setV vf
      (flagByte (drawnSprite x y n s).collision)).advance := by
  intro e he
  cases e with
  | pc => exact absurd (.inl rfl) he
  | v r =>
    have hr : r ≠ vf := fun hr => he (.inr (.inl (congrArg _ hr)))
    exact (State.getV_setV _ _ _ _).trans (if_neg hr)
  | pixel px py =>
    exact lit_drawnSprite_of_not_covers fun hc => he (.inr (.inr ⟨px, py, rfl, hc⟩))
  | _ => rfl

/-- Settles O50: inside memory the closed form of the loops, outside it the fault entry. -/
theorem drawFlipsExactlyTheSprite : Obligations.DrawFlipsExactlyTheSprite := by
  refine fun x y n s => ⟨fun h => ?_, fun hn h => ?_⟩
  · refine ⟨_, execDrw_of_inside h, fun px py => lit_drawnSprite_of_covers, fun hc => ?_,
      fun hc => ?_, rfl, changesOnly_draw⟩ <;>
      rw [State.getV_advance, vf, State.getV_setV, if_pos rfl]
    · rw [(drawnSprite_collision_iff x y n s).2 hc]; rfl
    · rw [Bool.eq_false_iff.2 (mt (drawnSprite_collision_iff x y n s).1 hc)]; rfl
  · have hout : ¬ SpriteInside n s := by rw [SpriteInside]; omega
    rw [exec, execDrw_of_not_inside hout]
    exact raiseBy_raised (.drw x y n) .memoryOutOfBounds _ s

/-! ### Drawing twice (R213) -/

theorem disp_of_drw_inside (hs : SpriteInside n s) (h : exec (.drw x y n) s = .next t) :
    t.disp = (drawnSprite x y n s).disp := by
  cases (execDrw_of_inside hs).symm.trans h
  rfl

theorem disp_of_drw_not_inside (hs : ¬ SpriteInside n s) (h : exec (.drw x y n) s = .next t) :
    t.disp = s.disp := by
  cases (execDrw_of_not_inside hs).symm.trans h
  rfl

end

/-- Settles O51: the two draws agree on whether they raise, and if they do not, on the pixels that
they flip, and a pixel flipped twice is as it was. -/
theorem drawTwiceRestoresTheDisplay : Obligations.DrawTwiceRestoresTheDisplay := by
  intro x y n s t u w hst hdisp hi hx hy hmem huw
  have hinside : SpriteInside n u ↔ SpriteInside n s := by rw [SpriteInside, SpriteInside, hi]
  have hcovers (px py) : SpriteCovers u x y n px py ↔ SpriteCovers s x y n px py := by
    simp only [SpriteCovers, hi, hx, hy, hmem]
  by_cases hs : SpriteInside n s
  · have ht : u.disp = (drawnSprite x y n s).disp := hdisp.trans (disp_of_drw_inside hs hst)
    rw [disp_of_drw_inside (hinside.2 hs) huw]
    refine pixels_ext _ _ fun px py => ?_
    by_cases hc : SpriteCovers s x y n px py
    · rw [lit_drawnSprite_of_covers ((hcovers px py).2 hc), ht, lit_drawnSprite_of_covers hc,
        Bool.not_not]
    · rw [lit_drawnSprite_of_not_covers (mt (hcovers px py).1 hc), ht,
        lit_drawnSprite_of_not_covers hc]
  · rw [disp_of_drw_not_inside (mt hinside.1 hs) huw, hdisp, disp_of_drw_not_inside hs hst]

end Sys2Proof.Machine

/-! # Proofs about the key and timer instructions (spec 46_keys_and_timers.md)

The key skips are skips like those of 42_skips.md, so `exists_skipped` says what they answer once
their condition is read on the values. The others write one register, `WAIT` or one timer and then
advance; their frames are put together from those of the single writes. -/

namespace Sys2Proof.Machine

/-! ### The skips on the key latch (R230, R231, decision D17) -/

theorem keyMatches_iff_exists (key : Option Nibble) (b : Byte) :
    keyMatches key b = true ↔ ∃ k, key = some k ∧ k.toNat = b.toNat :=
  (keyMatches_iff key b).trans Option.map_eq_some_iff

theorem not_keyMatches_iff_not_exists (key : Option Nibble) (b : Byte) :
    (!keyMatches key b) = true ↔ ¬ ∃ k, key = some k ∧ k.toNat = b.toNat := by
  rw [← keyMatches_iff_exists, Bool.not_eq_true', Bool.not_eq_true]

/-- Settles O52: EX9E skips on the match of the key and EXA1 on its negation. -/
theorem keySkips : Obligations.KeySkips := by
  classical
  refine fun x s => ⟨?_, ?_⟩
  · obtain ⟨t, h, hpc, hframe⟩ :=
      exists_skipped (i := .skp x) rfl (keyMatches_iff_exists s.key (s.getV x))
    exact ⟨t, h, fun hk => hpc.trans (if_pos hk), fun hk => hpc.trans (if_neg hk), hframe⟩
  · obtain ⟨t, h, hpc, hframe⟩ :=
      exists_skipped (i := .sknp x) rfl (not_keyMatches_iff_not_exists s.key (s.getV x))
    exact ⟨t, h, fun hk => hpc.trans (if_neg (not_not_intro hk)),
      fun hk => hpc.trans (if_pos hk), hframe⟩

/-! ### The wait for a key (R233, decision D16) -/

theorem changesOnly_wait_setV_advance (s : State) (wait : Bool) (x : Nibble) (b : Byte) :
    ChangesOnly (fun e => e = .pc ∨ e = .wait ∨ e = .v x) s
      ({ s with wait := wait }.setV x b).advance :=
  ((changesOnly_wait s wait).weaken fun _ h => .inr (.inl h)).trans
    ((changesOnly_setV_advance _ x b).weaken fun _ h => h.imp_right .inr)

/-- Settles O53: one equation of FX0A for each content of the latch; a key code keeps its value as a
byte. -/
theorem keyWaitTakesTheLatchedKey : Obligations.KeyWaitTakesTheLatchedKey := by
  refine fun x s => ⟨fun hnone => ?_, fun k hk => ?_⟩
  · exact ⟨_, execLdVxK_of_none hnone, rfl, changesOnly_wait s true⟩
  · refine ⟨_, execLdVxK_of_some hk, ?_, rfl, rfl, changesOnly_wait_setV_advance s false x _⟩
    rw [State.getV_setV_advance_self, BitVec.toNat_setWidth_of_le (by decide)]

/-! ### The timer transfers (R232, R234, R235) -/

theorem ChangesOnly.advance {P : Elem → Prop} {s t : State} (h : ChangesOnly P s t)
    (hpc : P .pc) : ChangesOnly P s t.advance :=
  h.trans ((changesOnly_pc t _).weaken fun _ he => he ▸ hpc)

/-- A write of the timers changes no element but those of the two that get a new value. -/
theorem changesOnly_timers {P : Elem → Prop} {s : State} {dt st : Byte}
    (hdt : ¬ P .dt → dt = s.dt) (hst : ¬ P .st → st = s.st) :
    ChangesOnly P s { s with dt := dt, st := st } := by
  intro e he
  cases e with
  | dt => exact hdt he
  | st => exact hst he
  | _ => rfl

/-- Settles O54: FX07 writes a register, FX15 and FX18 one timer and not the other. -/
theorem timerTransfers : Obligations.TimerTransfers := fun x s =>
  ⟨⟨_, rfl, s.getV_setV_advance_self x s.dt, rfl, changesOnly_setV_advance s x s.dt⟩,
    ⟨_, rfl, rfl, rfl,
      (changesOnly_timers (fun h => absurd (.inr rfl) h) fun _ => rfl).advance (.inl rfl)⟩,
    ⟨_, rfl, rfl, rfl,
      (changesOnly_timers (fun _ => rfl) fun h => absurd (.inr rfl) h).advance (.inl rfl)⟩⟩

end Sys2Proof.Machine

/-! # Proofs about exceptions and the host's operations (spec 60_exceptions.md)

A fault has one entry: the record is latched and nothing else is written (R256). Which record it is
depends on the instruction: SYS, a full or an empty stack, or a range that passes the end of memory
(R251). Beside the faults stand the host's operations, as one equation per state of the latch. -/

namespace Sys2Proof.Machine

/-! ### Fault entry is precise (R256) -/

/-- Fault entry is the one effect that writes the latch, and it writes nothing else. -/
theorem Effect.eq_of_fault_ne {i : Instr} {s t : State} (h : Effect s i t)
    (hne : t.fault ≠ s.fault) : t = { s with fault := t.fault } := by
  cases h with
  | raised => rfl
  | _ => simp at hne

/-- Settles O11: a fault of the fetch or decode stage is latched by `step`, one of the execute stage
by `Effect.raised`. -/
theorem faultsArePrecise : Obligations.FaultsArePrecise := by
  intro s t hs h ht
  rcases step_cases s with ⟨hs', -⟩ | ⟨-, r, -, e⟩ | ⟨-, i, -, e⟩
  · exact absurd hs hs'
  · cases e.symm.trans h
    rfl
  · exact (effect_of_exec (e.symm.trans h)).eq_of_fault_ne (hs ▸ ht)

/-! ### The range faults (R255, decision D8) -/

/-- The record of an access to the `n` cells from `I` on, the last of them outside memory. -/
def OutOfBoundsAtI (s : State) (n : Nat) (r : FaultRecord) : Prop :=
  config.memSize ≤ s.i.toNat + n - 1 ∧ r.code = .memoryOutOfBounds ∧
    r.addr = some (max s.i.toNat config.memSize)

section

variable {i : Instr} {s t : State} {r : FaultRecord}

theorem outOfBoundsAtI_of_raiseBy {n : Nat} (hn : 4096 < s.i.toNat + n)
    (h : raiseBy i .memoryOutOfBounds (some (max s.i.toNat 4096)) s = .next t)
    (hr : t.fault = some r) : OutOfBoundsAtI s n r := by
  cases h
  cases hr
  exact ⟨Nat.le_sub_one_of_lt hn, rfl, rfl⟩

variable (hr : t.fault = some r) (hne : t.fault ≠ s.fault)

include hr hne

theorem outOfBoundsAtI_of_storeAtI {bytes : List Byte} (h : storeAtI i bytes s = .next t) :
    OutOfBoundsAtI s bytes.length r := by
  rcases storeAtI_cases i bytes s with ⟨-, hn, e⟩ | ⟨-, e⟩
  · exact outOfBoundsAtI_of_raiseBy hn (e.symm.trans h) hr
  · cases e.symm.trans h
    exact absurd rfl hne

theorem outOfBoundsAtI_of_execLdRegs {x : Nibble} (h : execLdRegs x s = .next t) :
    OutOfBoundsAtI s (x.toNat + 1) r := by
  rcases execLdRegs_cases x s with ⟨hn, e⟩ | ⟨-, e⟩
  · exact outOfBoundsAtI_of_raiseBy hn (e.symm.trans h) hr
  · cases e.symm.trans h
    exact absurd (State.setVs_fault s 0 _) hne

theorem outOfBoundsAtI_of_execDrw {x y n : Nibble} (h : execDrw x y n s = .next t) :
    1 ≤ n.toNat ∧ OutOfBoundsAtI s n.toNat r := by
  rcases execDrw_cases x y n s with ⟨hpos, hn, e⟩ | ⟨-, d, -, e⟩
  · exact ⟨hpos, outOfBoundsAtI_of_raiseBy hn (e.symm.trans h) hr⟩
  · cases e.symm.trans h
    exact absurd rfl hne

/-! ### The stack faults (R253, R254) -/

theorem stackUnderflow_of_execRet (h : execRet s = .next t) :
    s.sp.val = 0 ∧ r.code = .stackUnderflow ∧ r.addr = none := by
  rcases execRet_cases s with ⟨h0, e⟩ | ⟨_, e⟩ <;> cases e.symm.trans h
  · cases hr
    exact ⟨h0, rfl, rfl⟩
  · exact absurd rfl hne

theorem stackOverflow_of_execCall {nnn : Addr} (h : execCall nnn s = .next t) :
    s.sp.val = 16 ∧ r.code = .stackOverflow ∧ r.addr = none := by
  rcases execCall_cases nnn s with ⟨h16, e⟩ | ⟨_, e⟩ <;> cases e.symm.trans h
  · cases hr
    exact ⟨h16, rfl, rfl⟩
  · exact absurd rfl hne

end

/-- Settles O13: only the instructions of `CanFault` write the latch, and each has one lemma that
says with what and when. -/
theorem faultsComeFromTheirInstructions : Obligations.FaultsComeFromTheirInstructions := by
  intro i s t r hs h hr
  have hne : t.fault ≠ s.fault := by rw [hs, hr]; exact Option.some_ne_none r
  rcases (effect_of_exec h).fault_writer hne with
    rfl | ⟨nnn, rfl | rfl⟩ | ⟨x, rfl | rfl | rfl⟩ | ⟨x, y, n, rfl⟩
  · exact .inr (.inr (.inl ⟨rfl, stackUnderflow_of_execRet hr hne h⟩))
  · cases h
    cases hr
    exact .inl ⟨⟨nnn, rfl⟩, rfl, rfl⟩
  · exact .inr (.inl ⟨⟨nnn, rfl⟩, stackOverflow_of_execCall hr hne h⟩)
  · exact .inr (.inr (.inr ⟨3, .inl ⟨x, rfl, rfl⟩, outOfBoundsAtI_of_storeAtI hr hne h⟩))
  · have hrange := outOfBoundsAtI_of_storeAtI hr hne h
    rw [length_regsUpTo] at hrange
    exact .inr (.inr (.inr ⟨_, .inr (.inl ⟨x, rfl, rfl⟩), hrange⟩))
  · exact .inr (.inr (.inr ⟨_, .inr (.inr (.inl ⟨x, rfl, rfl⟩)),
      outOfBoundsAtI_of_execLdRegs hr hne h⟩))
  · obtain ⟨hpos, hrange⟩ := outOfBoundsAtI_of_execDrw hr hne h
    exact .inr (.inr (.inr ⟨_, .inr (.inr (.inr ⟨x, y, n, rfl, rfl, hpos⟩)), hrange⟩))

/-! ### Unsupported opcodes (R252) -/

/-- The space of R98 is what decodes to `SYS`. -/
theorem sysWord_iff (w : Word) : SysWord w ↔ ∃ nnn, decodeWord w = .ok (.sys nnn) := by
  constructor
  · rintro ⟨hop, hcls, hret⟩
    rw [← fieldOp_toNat] at hop
    refine ⟨fieldNNN w, ?_⟩
    simp only [decodeWord, hop, decode0, if_neg hcls, if_neg hret]
  · rintro ⟨nnn, h⟩
    refine ⟨?_, ?_, ?_⟩
    · rw [← fieldOp_toNat, ← encode_of_decodeWord h, encode, fieldOp_formatA]
      rfl
    · rintro rfl
      cases decodeWord_00E0.symm.trans h
    · rintro rfl
      cases decodeWord_00EE.symm.trans h

theorem illegalWord_iff_decodeWord (w : Word) :
    IllegalWord w ↔ ∃ e, decodeWord w = .error e := by
  refine ⟨fun h => ⟨_, (failsExactly_decodeWord w).1 h⟩, fun ⟨e, he⟩ => ?_⟩
  by_contra h
  obtain ⟨i, hi⟩ := (failsExactly_decodeWord w).2 h
  cases he.symm.trans hi

/-- An illegal word is latched by the decode stage, before any instruction's rule runs. -/
theorem step_of_decodeWord_error {s : State} {w : Word} {e : DecodeError} (hs : s.fault = none)
    (hw : fetchWord s = .ok w) (he : decodeWord w = .error e) :
    step s = .next (s.latch ⟨.unsupportedOpcode, some w, some s.pc, none⟩) := by
  simp [step, not_halted s hs, fetchInstr, hw, he]

/-- Settles O9: an illegal word faults in the decode stage; of the words that decode, those that
decode to `SYS` raise this fault, and O13 says that no others do. -/
theorem unsupportedOpcodeExactly : Obligations.UnsupportedOpcodeExactly := by
  intro s w hs hw
  rw [illegalWord_iff_decodeWord, sysWord_iff]
  cases hd : decodeWord w with
  | error e =>
    exact ⟨_, step_of_decodeWord_error hs hw hd, fun _ => rfl, fun _ _ _ => .inl ⟨e, rfl⟩⟩
  | ok i =>
    obtain ⟨t, ht, -⟩ := exec_effect i s
    refine ⟨t, (step_of_fetchInstr hs (fetchInstr_of_fetchWord hw hd)).trans ht, ?_,
      fun r hr hcode => ?_⟩
    · rintro (⟨e, he⟩ | ⟨nnn, hnnn⟩)
      · cases he
      · cases hnnn
        cases ht
        rw [State.latch_fault, encode_of_decodeWord hd]
    · rcases faultsComeFromTheirInstructions i s t r hs ht hr with
        ⟨⟨nnn, rfl⟩, -⟩ | ⟨-, -, h, -⟩ | ⟨-, -, h, -⟩ | ⟨n, -, -, h, -⟩
      · exact .inr ⟨nnn, rfl⟩
      all_goals cases hcode.symm.trans h

/-! ### What the host reads (R265, R266) -/

/-- The pixels of one row, column 0 first. -/
def rowPixels (row : PixelRow) : Vector Bool 64 := (Vector.range 64).map row.getLsbD

theorem getElem_rowPixels (row : PixelRow) {x : Nat} (hx : x < 64) :
    (rowPixels row)[x] = row.getLsbD x := by
  simp [rowPixels]

/-- The list is the rows' 64 pixels one after the other, so its length is part of its type. -/
theorem readDisplay_eq (s : State) : readDisplay s = (s.disp.flatMap rowPixels).toList := by
  simp only [readDisplay, Vector.toList, Vector.flatMap, Array.toList_flatMap]
  simp [rowPixels]

theorem getElem?_readDisplay (s : State) (x : Fin 64) (y : Fin 32) :
    (readDisplay s)[64 * y.val + x.val]? = some (lit s.disp x y) := by
  have hdiv : (64 * y.val + x.val) / 64 = y.val := by omega
  have hmod : (64 * y.val + x.val) % 64 = x.val := by omega
  rw [readDisplay_eq, Vector.getElem?_toList, Vector.getElem?_eq_getElem (by omega),
    Vector.getElem_flatMap, getElem_rowPixels]
  simp only [hdiv, hmod, lit]

/-- Settles O57: element by element; both operations answer the state they were given. -/
theorem exportsReadTheState : Obligations.ExportsReadTheState := fun s =>
  ⟨by rw [readDisplay_eq, Vector.length_toList], getElem?_readDisplay s, rfl,
    fun _ => ⟨rfl, rfl⟩⟩

/-! ### The timers and the key latch (R257, R263, R264) -/

section

variable {s : State}

theorem tickTimers_of_halted (hs : s.fault ≠ none) : tickTimers s = s := by
  rw [tickTimers, if_pos ((halted_iff s).2 hs)]

theorem tickTimers_of_not_halted (hs : s.fault = none) :
    tickTimers s = { s with dt := tickDown s.dt, st := tickDown s.st } := by
  simp [tickTimers, not_halted s hs]

theorem setKey_of_halted (k : Option Nibble) (hs : s.fault ≠ none) : setKey k s = s := by
  rw [setKey, if_pos ((halted_iff s).2 hs)]

theorem setKey_of_not_halted (k : Option Nibble) (hs : s.fault = none) :
    setKey k s = { s with key := k } := by
  simp [setKey, not_halted s hs]

end

/-- The floor at zero is that of the subtraction of natural numbers. -/
theorem tickDown_toNat (t : Byte) : (tickDown t).toNat = t.toNat - 1 := by
  unfold tickDown
  split
  · bv_omega
  · omega

/-- Settles O55: one equation of the tick for each state of the latch. -/
theorem tickLowersBothTimers : Obligations.TickLowersBothTimers := by
  refine fun s => ⟨fun hs => ?_, tickTimers_of_halted⟩
  rw [tickTimers_of_not_halted hs]
  exact ⟨tickDown_toNat s.dt, tickDown_toNat s.st,
    changesOnly_timers (fun h => absurd (.inl rfl) h) fun h => absurd (.inr rfl) h⟩

theorem changesOnly_key (s : State) (k : Option Nibble) :
    ChangesOnly (fun e => e = .key) s { s with key := k } := by
  intro e he
  cases e with
  | key => exact absurd rfl he
  | _ => rfl

/-- Settles O56: one equation of the write for each state of the latch; the first write does not
halt the block, so the second replaces its value. -/
theorem setKeyReplacesTheLatch : Obligations.SetKeyReplacesTheLatch := by
  refine fun s k k' => ⟨fun hs => ?_, setKey_of_halted k⟩
  have hs' : ({ s with key := k } : State).fault = none := hs
  rw [setKey_of_not_halted k hs, setKey_of_not_halted k' hs, setKey_of_not_halted k' hs']
  exact ⟨rfl, rfl, changesOnly_key s k⟩

end Sys2Proof.Machine

/-! # Proofs about reset and hazards (spec 70_reset_and_hazards.md)

The parity of `PC` and of the live stack entries is read off `Effect`: every value that an
instruction can leave there is an old one, an old one plus 2 or 4, or a target. A parked block jumps
to where it stands. A reset writes its image, or the latch, into the state of an empty reset. -/

namespace Sys2Proof.Machine

/-! ### Even addresses (R303) -/

/-- A sum that wraps at 16 bits has the parity of the exact sum. -/
theorem toNat_add_even {a b : Word} (ha : a.toNat % 2 = 0) (hb : b.toNat % 2 = 0) :
    (a + b).toNat % 2 = 0 := by
  rw [BitVec.toNat_add]
  omega

namespace Effect

variable {i : Instr} {s t : State}

/-- An entry that is live after an instruction was live before it, or is the `PC` that it pushed. -/
theorem live_cases (h : Effect s i t) (k : Fin 16) (hk : k.val < t.sp.val) :
    t.stack[k.val] = s.pc ∨ (k.val < s.sp.val ∧ t.stack[k.val] = s.stack[k.val]) := by
  rcases h.stack_cases with ⟨hst, hsp⟩ | ⟨hlt, hst, hsp⟩
  · exact .inr ⟨by omega, by simp only [hst]⟩
  · simp only [hst, Vector.getElem_set]
    split
    · exact .inl rfl
    · exact .inr ⟨by omega, rfl⟩

theorem pc_even (h : Effect s i t) (hs : EvenPc s) (hi : EvenTarget i s) :
    t.pc.toNat % 2 = 0 := by
  obtain ⟨hpc, hlive⟩ := hs
  rcases h.pc_cases with e | e | e | ⟨nnn, rfl | rfl, e⟩ | ⟨nnn, rfl, e⟩ | ⟨-, h0, e⟩ <;> rw [e]
  · exact hpc
  · exact toNat_add_even hpc rfl
  · exact toNat_add_even hpc rfl
  · exact (zextAddr_toNat nnn).symm ▸ hi
  · exact (zextAddr_toNat nnn).symm ▸ hi
  · exact (zextAddr_add_zextByte_toNat nnn (s.getV 0)).symm ▸ hi
  · exact toNat_add_even (hlive ⟨s.sp.val - 1, by omega⟩ (Nat.sub_one_lt_of_lt h0)) rfl

theorem evenPc (h : Effect s i t) (hs : EvenPc s) (hi : EvenTarget i s) : EvenPc t := by
  refine ⟨h.pc_even hs hi, fun k hk => ?_⟩
  obtain ⟨hpc, hlive⟩ := hs
  rcases h.live_cases k hk with e | ⟨hlt, e⟩ <;> rw [e]
  · exact hpc
  · exact hlive k hlt

end Effect

/-- Settles O22: a halted step and a fault before the execute stage leave `PC` and the stack, and
every effect of an instruction with an even target keeps them even. -/
theorem evenTargetsKeepPcEven : Obligations.EvenTargetsKeepPcEven := by
  intro s t hs htarget h
  rcases step_cases s with ⟨-, e⟩ | ⟨-, r, -, e⟩ | ⟨-, i, hi, e⟩
  · cases e.symm.trans h
    exact hs
  · cases e.symm.trans h
    exact hs
  · exact (effect_of_exec (e.symm.trans h)).evenPc hs (htarget i hi)

/-! ### The parked state (R301, decision D26) -/

theorem zextAddr_eq_of_toNat_eq {nnn : Addr} {w : Word} (h : nnn.toNat = w.toNat) :
    zextAddr nnn = w :=
  BitVec.eq_of_toNat_eq ((zextAddr_toNat nnn).trans h)

/-- Settles O23: the jump writes `PC` alone, with the value that it has. -/
theorem parkedStateIsMappedToItself : Obligations.ParkedStateIsMappedToItself := by
  rintro s ⟨hs, nnn, hfetch, hnnn⟩
  rw [step_of_fetchInstr hs hfetch, exec, execJp, zextAddr_eq_of_toNat_eq hnnn]
  rfl

/-! ### Loading an image (R290 to R293) -/

theorem Memory.get_setRange_add (m : Memory) (a : Nat) {vs : List Byte} {k : Nat}
    (hk : k < vs.length) : (m.setRange a vs).get (a + k) = vs[k] := by
  rw [Memory.get_setRange, if_pos (Nat.le_add_right a k), Nat.add_sub_cancel_left,
    List.getElem?_eq_getElem hk, Option.getD_some]

theorem changesOnly_setRange (s : State) (base : Nat) (vs : List Byte) :
    ChangesOnly (fun e => ∃ k < vs.length, e = .cell (base + k)) s
      { s with mem := s.mem.setRange base vs } := by
  intro e he
  cases e with
  | cell a =>
    refine Memory.get_setRange_outside _ _ _ _ ?_
    by_contra hin
    exact he ⟨a - base, by omega, congrArg Elem.cell (by omega)⟩
  | _ => rfl

/-- Settles O58: the image is one range write into the state of an empty reset, and a failed load
is that state with its record latched. -/
theorem resetLoadsTheImage : Obligations.ResetLoadsTheImage := by
  intro p image s
  rcases resetWith_cases p image s with ⟨hle, e⟩ | ⟨hlt, e⟩ <;> rw [e]
  · exact ⟨fun _ => ⟨fun k hk => Memory.get_setRange_add _ _ hk, changesOnly_setRange _ _ image⟩,
      fun h => absurd hle (Nat.not_le_of_lt h)⟩
  · exact ⟨fun h => absurd h (Nat.not_le_of_lt hlt), fun _ => ⟨rfl, changesOnly_latch _ _⟩⟩

end Sys2Proof.Machine
